-- ==== Sys2Proof/Word.lean ====
section
/-! DEFINITION. The widths of the block's data (00_scope.md R11): u8, u16, u32, and the 12-bit window offset of R60. -/

namespace Sys2Proof

/-- u8: a data byte, a slave id, a function code, an operand `A8`. -/
abbrev Byte := BitVec 8

/-- u16: a transaction id, a CRC, an MBAP field, an operand `A16`. -/
abbrev Half := BitVec 16

/-- u32: a register of the window, a command word. -/
abbrev Word := BitVec 32

/-- A byte offset into the 4096-byte host window (20_memory.md R60). -/
abbrev Addr := BitVec 12

end Sys2Proof
end

