-- ==== Sys2Proof/Syntax.lean ====
section
/-! DEFINITION. The commands of the block, one constructor per row of the opcode map (30_encoding.md R93). A constructor carries the
operand fields its row uses and no others: unused fields of the command word are ignored (R94). -/

namespace Sys2Proof

/-- A command, with the operands column "operands used" of R93 gives it. -/
inductive Instr where
  /-- CRC_INIT, 0x01 (R132). -/
  | crcInit
  /-- CRC_BYTE, 0x02: `A8` is the byte to fold in (R133). -/
  | crcByte (a8 : Byte)
  /-- LRC_RESET, 0x10 (R152). -/
  | lrcReset
  /-- LRC_PUSH, 0x11: `A8` is the byte to accumulate (R153). -/
  | lrcPush (a8 : Byte)
  /-- TCP_ENCODE, 0x20: `A8` is the slave id (R172). -/
  | tcpEncode (a8 : Byte)
  /-- TCP_REPLY, 0x21: `A8` is the unit id, `A16` the transaction id (R174). -/
  | tcpReply (a8 : Byte) (a16 : Half)
  /-- MBAP_PARSE, 0x22 (R176). -/
  | mbapParse
  /-- TCP_DECODE, 0x23 (R178). -/
  | tcpDecode
  /-- TCP_SPLIT, 0x24 (R180). -/
  | tcpSplit
  /-- RTU_ENCODE, 0x30: `A8` is the slave id (R202). -/
  | rtuEncode (a8 : Byte)
  /-- RTU_RXLEN, 0x31 (R208). -/
  | rtuRxlen
  /-- RTU_DECODE, 0x32 (R210). -/
  | rtuDecode
  /-- ASCII_ENCODE, 0x40: `A8` is the slave id (R233). -/
  | asciiEncode (a8 : Byte)
  /-- ASCII_DECODE, 0x41 (R235). -/
  | asciiDecode
  deriving DecidableEq, Repr

end Sys2Proof
end

