-- ==== Sys2Proof/WellFormed.lean ====
section
/-! DEFINITION. Well-formedness. Every operand of a command is a u8 or a u16 used as it stands, and any value is accepted (30_encoding.md
R92, R94): the types hold that bound, so every term of `Instr` is well formed. What can be ill formed is a command WORD, whose `OP` selects
no command (R95). -/

namespace Sys2Proof

/-- R92, R94: no operand value of any command is reserved. -/
def Instr.wf : Instr → Bool
  | .crcInit => true
  | .crcByte _ => true
  | .lrcReset => true
  | .lrcPush _ => true
  | .tcpEncode _ => true
  | .tcpReply _ _ => true
  | .mbapParse => true
  | .tcpDecode => true
  | .tcpSplit => true
  | .rtuEncode _ => true
  | .rtuRxlen => true
  | .rtuDecode => true
  | .asciiEncode _ => true
  | .asciiDecode => true

/-- R95: the `OP` values that select no command, as the rule lists their ranges (242 values). -/
def illegalOpcode (op : Byte) : Bool :=
  op == 0x00 || (0x03 ≤ op && op ≤ 0x0F) || (0x12 ≤ op && op ≤ 0x1F) || (0x25 ≤ op && op ≤ 0x2F)
    || (0x33 ≤ op && op ≤ 0x3F) || (0x42 ≤ op && op ≤ 0xFF)

/-- A command word is well formed when its `OP` field, bits [7:0], selects a command; no other bit matters (R93, R95, R96). -/
def commandWordWf (w : Word) : Bool :=
  !illegalOpcode (w.extractLsb' 0 8)

end Sys2Proof
end

