-- ==== Sys2Proof/Decode.lean ====
section
/-! DEFINITION. The decoder and the encoder of command words (30_encoding.md R90 to R96). -/

namespace Sys2Proof

/-- Why a word is no command: its `OP` selects none (R95). -/
inductive Reject where
  | illegalOpcode (op : Byte)
  deriving DecidableEq, Repr

/-- `OP = w[7:0]` (R91). -/
def opField (w : Word) : Byte := w.extractLsb' 0 8

/-- `A8 = w[15:8]`, used as it stands (R92). -/
def a8Field (w : Word) : Byte := w.extractLsb' 8 8

/-- `A16 = w[31:16]`, used as it stands (R92). -/
def a16Field (w : Word) : Half := w.extractLsb' 16 16

/-- The opcode map of R93. The decoder reads `w[7:0]` alone to select the command (R96); the operand fields go only where the row's
column "operands used" sends them (R94). -/
def decode (w : Word) : Except Reject Instr :=
  match opField w with
  | 0x01#8 => .ok .crcInit
  | 0x02#8 => .ok (.crcByte (a8Field w))
  | 0x10#8 => .ok .lrcReset
  | 0x11#8 => .ok (.lrcPush (a8Field w))
  | 0x20#8 => .ok (.tcpEncode (a8Field w))
  | 0x21#8 => .ok (.tcpReply (a8Field w) (a16Field w))
  | 0x22#8 => .ok .mbapParse
  | 0x23#8 => .ok .tcpDecode
  | 0x24#8 => .ok .tcpSplit
  | 0x30#8 => .ok (.rtuEncode (a8Field w))
  | 0x31#8 => .ok .rtuRxlen
  | 0x32#8 => .ok .rtuDecode
  | 0x40#8 => .ok (.asciiEncode (a8Field w))
  | 0x41#8 => .ok .asciiDecode
  | op => .error (.illegalOpcode op)

/-- The `OP` value of each command (R93). -/
def Instr.opcode : Instr → Byte
  | .crcInit => 0x01
  | .crcByte _ => 0x02
  | .lrcReset => 0x10
  | .lrcPush _ => 0x11
  | .tcpEncode _ => 0x20
  | .tcpReply _ _ => 0x21
  | .mbapParse => 0x22
  | .tcpDecode => 0x23
  | .tcpSplit => 0x24
  | .rtuEncode _ => 0x30
  | .rtuRxlen => 0x31
  | .rtuDecode => 0x32
  | .asciiEncode _ => 0x40
  | .asciiDecode => 0x41

/-- A command word from its fields: `(a16 << 16) | (a8 << 8) | OP` (R97). -/
def commandWord (op a8 : Byte) (a16 : Half) : Word := a16 ++ a8 ++ op

/-- The word of a command; operands it does not use are 0 (R97 "omitted operands 0"). -/
def encode (i : Instr) : Word :=
  match i with
  | .crcInit => commandWord 0x01 0 0
  | .crcByte a8 => commandWord 0x02 a8 0
  | .lrcReset => commandWord 0x10 0 0
  | .lrcPush a8 => commandWord 0x11 a8 0
  | .tcpEncode a8 => commandWord 0x20 a8 0
  | .tcpReply a8 a16 => commandWord 0x21 a8 a16
  | .mbapParse => commandWord 0x22 0 0
  | .tcpDecode => commandWord 0x23 0 0
  | .tcpSplit => commandWord 0x24 0 0
  | .rtuEncode a8 => commandWord 0x30 a8 0
  | .rtuRxlen => commandWord 0x31 0 0
  | .rtuDecode => commandWord 0x32 0 0
  | .asciiEncode a8 => commandWord 0x40 a8 0
  | .asciiDecode => commandWord 0x41 0 0

/-- The command word whose bits are the low `nbits` bits of `w`, every bit above them 0. A command is one 32-bit word (R96). -/
def tableWord (nbits w : Nat) : Word := BitVec.ofNat 32 (w % 2 ^ nbits)

/-- The command the decoder reads from the opcode table's numbering of a word's bits; `none` where it rejects. -/
def decodeTableWord (nbits w : Nat) : Option Instr :=
  match decode (tableWord nbits w) with
  | .ok i => some i
  | .error _ => none

end Sys2Proof
end

