-- ==== Sys2Proof/Config.lean ====
section
/-! DEFINITION. What the spec leaves open: the one open parameter of the block, `BUF_INIT` (00_scope.md R10). The size constants that the spec fixes (R8) stand in Machine/Params.lean. -/

namespace Sys2Proof

/-- `BUF_INIT` (10_state.md R46): the byte that window offset `addr` of a buffer holds after reset number `epoch`, a draw under
no law. It has no body: nothing can be proved of its value. A FREE VALUE (log 3), applied to the reset counter of State (log 5). -/
opaque Config.bufInit (epoch addr : Nat) : Byte

end Sys2Proof
end

