-- ==== Sys2Proof/Machine/State.lean ====
section
/-! DEFINITION. The block's architectural state as plain data (10_state.md R20 to R50), the events the outside world sends it, and the
state after reset (70_reset_and_hazards.md R280). -/

namespace Sys2Proof.Machine

/-- `STATUS.RES`, the result class of the last command (R25). Values 5 to 15 are never produced, so they are not constructors (log 17). -/
inductive Res where
  /-- 0: the command completed; for a decode, a normal reply. -/
  | ok
  /-- 1: a decode completed on a valid exception response. -/
  | exception
  /-- 2: caller misuse, detected before any frame is produced. -/
  | paramErr
  /-- 3: a framing or protocol error. -/
  | frameErr
  /-- 4: the word's `OP` selects no command (R95). -/
  | illegalCmd
  deriving DecidableEq, Repr

/-- `STATUS.CAUSE`, the check that failed (60_exceptions.md R252). Values the table does not name are never produced (log 17). -/
inductive Cause where
  /-- 0x00: the last command did not fail (R26). -/
  | none
  /-- 0x01: `PDU_LEN` outside 1 to 253. -/
  | pduSize
  /-- 0x02: `REQ_MODE` is not the decoder's format. -/
  | noRequest
  /-- 0x03: an RTU quantity-bearing request shorter than 5 PDU bytes. -/
  | predShort
  /-- 0x04: a predicted RTU response longer than 256 bytes. -/
  | predRange
  /-- 0x10: fewer bytes than the fixed header. -/
  | short
  /-- 0x11: MBAP length field 0 or above 254. -/
  | badLength
  /-- 0x12: `RX_LEN` is not 6 + length. -/
  | lengthMismatch
  /-- 0x13: `RX_LEN` outside the format's bounds. -/
  | badSize
  /-- 0x14: CRC or LRC mismatch. -/
  | checksum
  /-- 0x15: `RX[0]` is not `:`. -/
  | noStart
  /-- 0x16: the frame does not end in CR LF. -/
  | noEnd
  /-- 0x17: the length excluding `:` is odd. -/
  | oddLength
  /-- 0x18: a character of the hex text is not a hexadecimal digit. -/
  | badHex
  /-- 0x19: the transaction id differs from `REQ_TID`. -/
  | tidMismatch
  /-- 0x1A: the protocol id is not 0. -/
  | pidMismatch
  /-- 0x1B: the slave or unit id differs from `REQ_SLAVE`. -/
  | slaveMismatch
  /-- 0x1C: the function code is neither `REQ_FC` nor `REQ_FC` with bit 7 set. -/
  | funcMismatch
  /-- 0x1D: the response PDU's data is empty. -/
  | emptyData
  /-- 0x1E: MBAP length 1, no function code. -/
  | noFunc
  /-- 0x1F: an exception response with more than one data byte. -/
  | excLength
  deriving DecidableEq, Repr

/-- `REQ_MODE`, the wire format of the last encoded request (R33); its four values are all named. -/
inductive Format where
  /-- 0: no request encoded since reset. -/
  | none
  /-- 1. -/
  | tcp
  /-- 2. -/
  | rtu
  /-- 3. -/
  | ascii
  deriving DecidableEq, Repr

/-- The fields of `STATUS` (R24). -/
structure Status where
  /-- `RES` (R25). -/
  res : Res
  /-- `CAUSE` (R26). -/
  cause : Cause
  /-- `EXC_CODE` (R27). -/
  excCode : Byte
  /-- `LAST_OP` (R27). -/
  lastOp : Byte
  deriving DecidableEq, Repr

/-- The request context: the fields of `REQ` (R33) and `REQ_TID` (R34). -/
structure Request where
  /-- `REQ_MODE`. -/
  mode : Format
  /-- `REQ_SLAVE`. -/
  slave : Byte
  /-- `REQ_FC`. -/
  fc : Byte
  /-- `REQ_TID`. -/
  tid : Half
  deriving DecidableEq, Repr

/-- The fields of an MBAP header (43_tcp_mbap.md R170), as `HDR0` (R40) and `HDR1` (R41) hold the last one parsed. -/
structure Header where
  /-- `H_TID`. -/
  tid : Half
  /-- `H_PID`. -/
  pid : Half
  /-- `H_LEN`. -/
  len : Half
  /-- `H_UNIT`. -/
  unit : Byte
  deriving DecidableEq, Repr

/-- What the outside world does to the block: the host's four accesses (20_memory.md R64) and the platform's reset (R280). An 8-bit write
carries a u8 (log 15). -/
inductive Event where
  /-- `MemRead(addr, 1)`. -/
  | read8 (addr : Addr)
  /-- `MemWrite(addr, 1, v)`. -/
  | write8 (addr : Addr) (v : Byte)
  /-- `MemRead(addr, 4)`. -/
  | read32 (addr : Addr)
  /-- `MemWrite(addr, 4, v)`; to offset 0 it issues the command `v` (R90). -/
  | write32 (addr : Addr) (v : Word)
  /-- The platform asserts reset, between two accesses (log 13). -/
  | reset
  deriving DecidableEq, Repr

/-- What the block answered to the last event served. The MODEL's own field (log 6). -/
inductive Response where
  /-- No access has been answered since reset. -/
  | none
  /-- A write was accepted without error (R63). -/
  | written
  /-- A read returned this u32 (R14). -/
  | data (v : Word)
  deriving DecidableEq, Repr

/-- The bytes of the buffers written since reset: (window offset, byte), offsets strictly rising. An offset that is not listed holds the
draw of `BUF_INIT` (R46; log 3, log 4). -/
abbrev Memory := List Host.Cell

/-- The state of one instance of the block (R22, R42 to R46, R49), and the model's own fields `pending`, `response`, `resets`. -/
structure State where
  /-- `STATUS` (R24). -/
  status : Status
  /-- `CRC_ACC` (R28). -/
  crcAcc : Half
  /-- `LRC_SUM` (R29). -/
  lrcSum : Byte
  /-- `TID` (R30). -/
  tid : Half
  /-- `BAUD` (R31). -/
  baud : Word
  /-- `PDU_LEN` (R32). -/
  pduLen : BitVec 9
  /-- `TX_LEN` (R35). -/
  txLen : BitVec 10
  /-- `RX_LEN` (R36). -/
  rxLen : BitVec 10
  /-- `RX_EXPECT` (R37). -/
  rxExpect : BitVec 10
  /-- The request context, `REQ` and `REQ_TID` (R33, R34). -/
  req : Request
  /-- `PRED_LEN` (R38). -/
  predLen : BitVec 10
  /-- `DELAY_US` (R39). -/
  delayUs : BitVec 64
  /-- `HDR0` and `HDR1` (R40, R41). -/
  hdr : Header
  /-- The PDU, TX and RX buffers (R42, R43, R44), by window offset. -/
  mem : Memory
  /-- How many resets have been served since power-up: the counter of the free value `Config.bufInit` (log 5). -/
  resets : Nat
  /-- The events the block has yet to serve, in the order they are issued (R70; log 1). -/
  pending : List Event
  /-- The answer to the last event served (log 6). -/
  response : Response
  deriving DecidableEq, Repr

/-- Why the machine stops. -/
inductive Fault where
  /-- R64: an access to an unmapped offset, an 8-bit access to the register range, or a misaligned 32-bit access. Raised by `serve`
  (Machine/Serve.lean). Safe: the spec asks for a fault of the host's step (D43; log 7). -/
  | busError (e : Event)
  deriving DecidableEq, Repr

/-- Why a command has no meaning. -/
inductive Refusal where
  /-- A command whose arm of `exec` has no meaning yet; no arm of this model is one. Safe: the machine stops where the block goes on. -/
  | notModelled (mnemonic : String)
  deriving DecidableEq, Repr

/-- What a step answers. -/
abbrev Result := Host.Outcome State Fault Refusal

/-- The block right after reset (R280): every register at the value its rule gives, no byte of the buffers written. -/
def State.reset : State where
  status := ⟨.ok, .none, 0, 0⟩
  crcAcc := 0xFFFF
  lrcSum := 0
  tid := 0
  baud := 0
  pduLen := 0
  txLen := 0
  rxLen := 0
  rxExpect := 0
  req := ⟨.none, 0, 0, 0⟩
  predLen := 0
  delayUs := 0
  hdr := ⟨0, 0, 0, 0⟩
  mem := []
  resets := 0
  pending := []
  response := .none

end Sys2Proof.Machine
end

