-- ==== Sys2Proof/Machine/Flags.lean ====
section
/-! DEFINITION. The block has no flags (10_state.md R48); the one status a program reads is `STATUS`. This file holds the numeric codes of
its fields (R25, R33, 60_exceptions.md R252) and the class of each cause. -/

namespace Sys2Proof.Machine

/-- The `RES` code (R25). -/
def Res.code : Res → BitVec 4
  | .ok => 0
  | .exception => 1
  | .paramErr => 2
  | .frameErr => 3
  | .illegalCmd => 4

/-- The `CAUSE` code (R252). -/
def Cause.code : Cause → Byte
  | .none => 0x00
  | .pduSize => 0x01
  | .noRequest => 0x02
  | .predShort => 0x03
  | .predRange => 0x04
  | .short => 0x10
  | .badLength => 0x11
  | .lengthMismatch => 0x12
  | .badSize => 0x13
  | .checksum => 0x14
  | .noStart => 0x15
  | .noEnd => 0x16
  | .oddLength => 0x17
  | .badHex => 0x18
  | .tidMismatch => 0x19
  | .pidMismatch => 0x1A
  | .slaveMismatch => 0x1B
  | .funcMismatch => 0x1C
  | .emptyData => 0x1D
  | .noFunc => 0x1E
  | .excLength => 0x1F

/-- The `REQ_MODE` code (R33). -/
def Format.code : Format → BitVec 2
  | .none => 0
  | .tcp => 1
  | .rtu => 2
  | .ascii => 3

/-- The result class a cause is reported with (the column "class" of R252); `none` for no cause. -/
def Cause.resClass : Cause → Option Res
  | .none => Option.none
  | .pduSize => some .paramErr
  | .noRequest => some .paramErr
  | .predShort => some .paramErr
  | .predRange => some .paramErr
  | .short => some .frameErr
  | .badLength => some .frameErr
  | .lengthMismatch => some .frameErr
  | .badSize => some .frameErr
  | .checksum => some .frameErr
  | .noStart => some .frameErr
  | .noEnd => some .frameErr
  | .oddLength => some .frameErr
  | .badHex => some .frameErr
  | .tidMismatch => some .frameErr
  | .pidMismatch => some .frameErr
  | .slaveMismatch => some .frameErr
  | .funcMismatch => some .frameErr
  | .emptyData => some .frameErr
  | .noFunc => some .frameErr
  | .excLength => some .frameErr

/-- `STATUS` as a read returns it: `LAST_OP` [31:24], `EXC_CODE` [23:16], `CAUSE` [15:8], [7:4] zero, `RES` [3:0] (R24). -/
def Status.word (st : Status) : Word := st.lastOp ++ st.excCode ++ st.cause.code ++ 0#4 ++ st.res.code

end Sys2Proof.Machine
end

