-- ==== Sys2Proof/Machine/Params.lean ====
section
/-! DEFINITION. The size constants and literals of the block, as 00_scope.md R8 lists them, the layout of the window's buffers (R9, R62),
and the character codes of the ASCII format (R16). -/

namespace Sys2Proof.Machine

/-- PDU_MIN (R8). -/
abbrev pduMin : Nat := 1
/-- PDU_MAX (R8). -/
abbrev pduMax : Nat := 253
/-- TCP_HDR (R8). -/
abbrev tcpHdr : Nat := 7
/-- TCP_MAX (R8). -/
abbrev tcpMax : Nat := 260
/-- MBAP_LEN_MAX (R8). -/
abbrev mbapLenMax : Nat := 254
/-- RTU_MIN (R8). -/
abbrev rtuMin : Nat := 4
/-- RTU_MAX (R8). -/
abbrev rtuMax : Nat := 256
/-- RTU_EXC (R8). -/
abbrev rtuExc : Nat := 5
/-- ASCII_MIN_BYTES (R8). -/
abbrev asciiMinBytes : Nat := 3
/-- ASCII_MAX_CHARS (R8). -/
abbrev asciiMaxChars : Nat := 513
/-- The shortest ASCII frame, `1 + 2 * 3 + 2` characters (45_ascii.md R235 check 2). -/
abbrev asciiMinChars : Nat := 1 + 2 * asciiMinBytes + 2
/-- CRC_POLY (R8). -/
abbrev crcPoly : Half := 0xA001
/-- CRC_INIT_VAL (R8). -/
abbrev crcInitVal : Half := 0xFFFF
/-- BAUD_THRESHOLD (R8). -/
abbrev baudThreshold : Nat := 19200
/-- CHAR_NUM (R8), the source's literal as it stands. -/
abbrev charNum : Nat := 15000000
/-- FRAME_NUM (R8), the source's literal as it stands. -/
abbrev frameNum : Nat := 35000000
/-- CHAR_FALLBACK (R8). -/
abbrev charFallback : Nat := 750
/-- FRAME_FALLBACK (R8). -/
abbrev frameFallback : Nat := 1750

/-- The window offset of `PDU[0]` (R42). -/
abbrev pduBase : Nat := 0x100
/-- The window offset of `TX[0]` (R43). -/
abbrev txBase : Nat := 0x400
/-- The window offset of `RX[0]` (R44). -/
abbrev rxBase : Nat := 0x800
/-- The bytes of the PDU buffer (R9, R42). -/
abbrev pduSize : Nat := 253
/-- The bytes of the transmit buffer (R9, R43). -/
abbrev txSize : Nat := 513
/-- The bytes of the receive buffer (R9, R44). -/
abbrev rxSize : Nat := 513

/-- `:` (R16). -/
abbrev charColon : Byte := 0x3A
/-- Carriage return (R16). -/
abbrev charCr : Byte := 0x0D
/-- Line feed (R16). -/
abbrev charLf : Byte := 0x0A

/-- Bit 7 of a function code, which flags an exception response (40_common.md R115). -/
abbrev excFlag : Byte := 0x80

end Sys2Proof.Machine
end

