-- ==== Sys2Proof/Machine/Ops.lean ====
section
/-! DEFINITION. The shared operations: one byte and a run of bytes of the buffers, and the two ends of a command, `raise` and `complete`
(40_common.md R111). The block has no trap entry and no return from one (60_exceptions.md R250, R258, R259): an error is a result in `STATUS`. -/

namespace Sys2Proof.Machine

/-! ### The buffers -/

/-- The offsets that hold a buffer byte: the PDU, TX and RX buffers and no reserved byte (20_memory.md R62). -/
def isBufferByte (a : Nat) : Bool :=
  (pduBase ≤ a && a < pduBase + pduSize) || (txBase ≤ a && a < txBase + txSize) || (rxBase ≤ a && a < rxBase + rxSize)

/-- The canonical form: offsets strictly rising, each the offset of a buffer byte (log 4). -/
abbrev Memory.wf (m : Memory) : Prop :=
  m.Pairwise (fun c d => c.1 < d.1) ∧ ∀ c ∈ m, isBufferByte c.1 = true

/-- The byte written at an offset since reset, if one was. -/
def Memory.lookup : Memory → Nat → Option Byte
  | [], _ => none
  | (k, v) :: m, a => if a = k then some v else Memory.lookup m a

/-- Writes one byte, keeping the offsets rising. -/
def Memory.write : Memory → Nat → Byte → Memory
  | [], a, b => [(a, b)]
  | (k, v) :: m, a, b =>
    if a < k then (a, b) :: (k, v) :: m
    else if a = k then (a, b) :: m
    else (k, v) :: Memory.write m a b

/-- Writes a run of bytes at rising offsets from `a`. -/
def Memory.writeRun : Memory → Nat → List Byte → Memory
  | m, _, [] => m
  | m, a, b :: bs => Memory.writeRun (m.write a b) (a + 1) bs

/-- The byte at an offset: what was written since reset, else the draw of `BUF_INIT` (R46; log 3). -/
def State.byteAt (s : State) (a : Nat) : Byte := (s.mem.lookup a).getD (Config.bufInit s.resets a)

/-- The `n` bytes at offsets `a`, `a + 1`, ... -/
def State.bytes (s : State) : Nat → Nat → List Byte
  | _, 0 => []
  | a, n + 1 => s.byteAt a :: s.bytes (a + 1) n

/-- `PDU[0 .. PDU_LEN)` (R113). -/
def State.pdu (s : State) : List Byte := s.bytes pduBase s.pduLen.toNat

/-- `TX[0 .. TX_LEN)`, the frame the host sends (R43). -/
def State.txFrame (s : State) : List Byte := s.bytes txBase s.txLen.toNat

/-- `RX[0 .. RX_LEN)`, the bytes the host received (R44). -/
def State.rxFrame (s : State) : List Byte := s.bytes rxBase s.rxLen.toNat

/-- `RX[i]` (R44). -/
def State.rx (s : State) (i : Nat) : Byte := s.byteAt (rxBase + i)

/-- `RX[i .. j)` (R12). -/
def State.rxSlice (s : State) (i j : Nat) : List Byte := s.bytes (rxBase + i) (j - i)

/-- `TX[0 .. n) <- frame` and `TX_LEN <- n`, with `n` the frame's length (R43, R35). -/
def State.putTx (s : State) (frame : List Byte) : State :=
  { s with mem := s.mem.writeRun txBase frame, txLen := BitVec.ofNat 10 frame.length }

/-- `PDU[0 .. n) <- pdu` and `PDU_LEN <- n`, with `n` the PDU's length (R42, R32). -/
def State.putPdu (s : State) (pdu : List Byte) : State :=
  { s with mem := s.mem.writeRun pduBase pdu, pduLen := BitVec.ofNat 9 pdu.length }

/-- Latches the request context on a successful encode (R33, R34). -/
def State.latch (s : State) (mode : Format) (slave fc : Byte) (tid : Half) : State :=
  { s with req := ⟨mode, slave, fc, tid⟩ }

/-! ### How a command ends -/

/-- `raise ParamError(c)` and `raise FrameError(c)` (00_scope.md R13). -/
inductive CmdError where
  | param (c : Cause)
  | frame (c : Cause)
  deriving DecidableEq, Repr

/-- `complete(res, exc)` of the command `op`: all four fields of `STATUS` are written (R111). -/
def State.complete (op : Byte) (res : Res) (exc : Byte) (s : State) : State :=
  { s with status := ⟨res, .none, exc, op⟩ }

/-- The command `op` raises: `STATUS` is written and nothing else changes (R111). -/
def State.raise (op : Byte) (e : CmdError) (s : State) : State :=
  match e with
  | .param c => { s with status := ⟨.paramErr, c, 0, op⟩ }
  | .frame c => { s with status := ⟨.frameErr, c, 0, op⟩ }

/-- The end of a command: a body computes its whole effect before anything is written, so an error leaves the state as it was but for
`STATUS` (R111). Every command ends in a next state (R110, R250). -/
def settle (op : Byte) (s : State) (body : Except CmdError State) : Result :=
  match body with
  | .ok t => .next t
  | .error e => .next (s.raise op e)

/-- A word whose `OP` selects no command: `STATUS` alone changes (30_encoding.md R95). -/
def State.illegal (op : Byte) (s : State) : State :=
  { s with status := ⟨.illegalCmd, .none, 0, op⟩ }

end Sys2Proof.Machine
end

