-- ==== Sys2Proof/Machine/Operands.lean ====
section
/-! DEFINITION. What the commands share about their operands: byte orders (00_scope.md R12), the PDU size check (40_common.md R114), the
classification of a response PDU and the end of a decode (R115 to R118). -/

namespace Sys2Proof.Machine

/-- `BE16(hi, lo)` (R12). -/
def be16Of (hi lo : Byte) : Half := hi ++ lo

/-- `LE16(lo, hi)` (R12). -/
def le16Of (lo hi : Byte) : Half := hi ++ lo

/-- `be16(v)`, most significant byte first (R12). -/
def be16 (v : Half) : List Byte := [v.extractLsb' 8 8, v.extractLsb' 0 8]

/-- `le16(v)`, least significant byte first (R12). -/
def le16 (v : Half) : List Byte := [v.extractLsb' 0 8, v.extractLsb' 8 8]

/-- `check_pdu()` (R114): `PDU[0 .. PDU_LEN)` when its length is 1 to 253. -/
def checkPdu (s : State) : Except CmdError (List Byte) :=
  if s.pduLen.toNat < pduMin ∨ s.pduLen.toNat > pduMax then .error (.param .pduSize)
  else .ok s.pdu

/-- The function code of a PDU, its byte 0 (R113). A PDU has at least one byte wherever this is used (log 18). -/
def functionCode (pdu : List Byte) : Byte := pdu.headD 0

/-- What a response is (R115). -/
inductive Verdict where
  | normal
  | exception (code : Byte)
  deriving DecidableEq, Repr

/-- `classify(req_fc, rsp)` (R115). The normal test comes first (R116); the exception code is reported whatever its value (R117). -/
def classify (reqFc : Byte) (rsp : List Byte) : Except CmdError Verdict :=
  let fc := functionCode rsp
  let data := rsp.tail
  if fc = reqFc then
    if data.length = 0 then .error (.frame .emptyData) else .ok .normal
  else if fc = reqFc ||| excFlag then
    if data.length = 0 then .error (.frame .emptyData)
    else if data.length ≠ 1 then .error (.frame .excLength)
    else .ok (.exception (data.headD 0))
  else .error (.frame .funcMismatch)

/-- `finish_decode(rsp, v)` of the decoder `op` (R118). -/
def finishDecode (op : Byte) (s : State) (rsp : List Byte) (v : Verdict) : State :=
  match v with
  | .normal => (s.putPdu rsp).complete op .ok 0
  | .exception e => (s.putPdu rsp).complete op .exception e

/-- The last check of a client decode and its end: `classify` against the request's function code, then `finish_decode` (R115, R118). -/
def classifyAndFinish (op : Byte) (s : State) (rsp : List Byte) : Except CmdError State :=
  match classify s.req.fc rsp with
  | .error e => .error e
  | .ok v => .ok (finishDecode op s rsp v)

end Sys2Proof.Machine
end

