-- ==== Sys2Proof/Machine/Lrc.lean ====
section
/-! DEFINITION. The LRC accumulator (42_lrc.md R150 to R155): the function, and the commands LRC_RESET and LRC_PUSH. -/

namespace Sys2Proof.Machine

/-- Adds one byte to a running sum mod 256 (R150, R153). -/
def lrcAdd (sum b : Byte) : Byte := sum + b

/-- The two's complement of a running sum, `(256 - sum) mod 256` (R150), which `LRC_VALUE` reads as (10_state.md R29). -/
def lrcValue (sum : Byte) : Byte := BitVec.ofNat 8 (256 - sum.toNat)

/-- `lrc(s)` (R150). -/
def lrc (s : List Byte) : Byte := lrcValue (s.foldl lrcAdd 0)

/-- LRC_RESET (R152). -/
def execLrcReset (s : State) : Result :=
  .next (({ s with lrcSum := 0 } : State).complete (Instr.opcode .lrcReset) .ok 0)

/-- LRC_PUSH (R153). -/
def execLrcPush (a8 : Byte) (s : State) : Result :=
  .next (({ s with lrcSum := lrcAdd s.lrcSum a8 } : State).complete (Instr.opcode (.lrcPush a8)) .ok 0)

end Sys2Proof.Machine
end

