-- ==== Sys2Proof/Machine/Bus.lean ====
section
/-! DEFINITION. The host's bus accesses to the window: the map (20_memory.md R62), legality (R64), register and buffer reads and writes
(R22 to R41, R63, R65, R47). The one access that does more, a 32-bit write to `CMD`, is in Machine/Serve.lean. -/

namespace Sys2Proof.Machine

/-! ### The window map -/

/-- What a window offset holds (R62). -/
inductive Region where
  /-- 0x000 to 0x043. -/
  | registers
  /-- A byte of the PDU buffer, 0x100 to 0x1FC. -/
  | pdu
  /-- A byte of the transmit buffer, 0x400 to 0x600. -/
  | tx
  /-- A byte of the receive buffer, 0x800 to 0xA00. -/
  | rx
  /-- A reserved buffer byte, 0x1FD to 0x1FF, 0x601 to 0x7FF, 0xA01 to 0xBFF. -/
  | reserved
  /-- Nothing: an access is a bus error. -/
  | unmapped
  deriving DecidableEq, Repr

/-- The window map (R62). -/
def region (a : Nat) : Region :=
  if a ≤ 0x043 then .registers
  else if a ≤ 0x0FF then .unmapped
  else if a ≤ 0x1FC then .pdu
  else if a ≤ 0x1FF then .reserved
  else if a ≤ 0x3FF then .unmapped
  else if a ≤ 0x600 then .tx
  else if a ≤ 0x7FF then .reserved
  else if a ≤ 0xA00 then .rx
  else if a ≤ 0xBFF then .reserved
  else .unmapped

/-- Whether a region is one of the three buffer windows, reserved bytes included (R64). -/
def Region.isBufferWindow : Region → Bool
  | .registers => false
  | .pdu => true
  | .tx => true
  | .rx => true
  | .reserved => true
  | .unmapped => false

/-- R64, 8-bit accesses: at any offset of a buffer window. -/
def legal8 (a : Addr) : Bool := (region a.toNat).isBufferWindow

/-- R64, 32-bit accesses: 4-aligned, in the register range or a buffer window. -/
def legal32 (a : Addr) : Bool :=
  a.toNat % 4 == 0 && (region a.toNat == .registers || (region a.toNat).isBufferWindow)

/-- Whether an event is no bus error (R64). -/
def Event.legal : Event → Bool
  | .read8 a => legal8 a
  | .write8 a _ => legal8 a
  | .read32 a => legal32 a
  | .write32 a _ => legal32 a
  | .reset => true

/-! ### Registers -/

/-- The seventeen registers (R22). -/
inductive Reg where
  | cmd | status | crc | lrc | tid | baud | pduLen | txLen | rxLen | rxExpect | req | reqTid | predLen | delayLo | delayHi | hdr0 | hdr1
  deriving DecidableEq, Repr

/-- A register's window offset (R22). -/
def Reg.offset : Reg → Addr
  | .cmd => 0x000
  | .status => 0x004
  | .crc => 0x008
  | .lrc => 0x00C
  | .tid => 0x010
  | .baud => 0x014
  | .pduLen => 0x018
  | .txLen => 0x01C
  | .rxLen => 0x020
  | .rxExpect => 0x024
  | .req => 0x028
  | .reqTid => 0x02C
  | .predLen => 0x030
  | .delayLo => 0x034
  | .delayHi => 0x038
  | .hdr0 => 0x03C
  | .hdr1 => 0x040

/-- The registers in the order of the map (R22). -/
def Reg.all : List Reg :=
  [.cmd, .status, .crc, .lrc, .tid, .baud, .pduLen, .txLen, .rxLen, .rxExpect, .req, .reqTid, .predLen, .delayLo, .delayHi, .hdr0, .hdr1]

/-- The register at an offset of the register range, if the offset is a register's (R22). -/
def regAt (a : Addr) : Option Reg := Reg.all.find? (fun r => r.offset == a)

/-- What a 32-bit read of a register returns (R23 to R41); bits that are no field read 0 (R47). -/
def State.readReg (s : State) : Reg → Word
  | .cmd => 0
  | .status => s.status.word
  | .crc => s.crcAcc.setWidth 32
  | .lrc => 0#16 ++ lrcValue s.lrcSum ++ s.lrcSum
  | .tid => s.tid.setWidth 32
  | .baud => s.baud
  | .pduLen => s.pduLen.setWidth 32
  | .txLen => s.txLen.setWidth 32
  | .rxLen => s.rxLen.setWidth 32
  | .rxExpect => s.rxExpect.setWidth 32
  | .req => 0#14 ++ s.req.mode.code ++ s.req.fc ++ s.req.slave
  | .reqTid => s.req.tid.setWidth 32
  | .predLen => s.predLen.setWidth 32
  | .delayLo => s.delayUs.extractLsb' 0 32
  | .delayHi => s.delayUs.extractLsb' 32 32
  | .hdr0 => s.hdr.pid ++ s.hdr.tid
  | .hdr1 => 0#8 ++ s.hdr.unit ++ s.hdr.len

/-- What a 32-bit write to a register other than `CMD` stores: the three RW registers keep their field's bits (R31, R32, R36), a write to an
RO register is ignored (R63). A write to `CMD` stores nothing (R23): it issues a command (Machine/Serve.lean). -/
def State.writeReg (s : State) (r : Reg) (v : Word) : State :=
  match r with
  | .baud => { s with baud := v }
  | .pduLen => { s with pduLen := v.setWidth 9 }
  | .rxLen => { s with rxLen := v.setWidth 10 }
  | .cmd => s
  | .status => s
  | .crc => s
  | .lrc => s
  | .tid => s
  | .txLen => s
  | .rxExpect => s
  | .req => s
  | .reqTid => s
  | .predLen => s
  | .delayLo => s
  | .delayHi => s
  | .hdr0 => s
  | .hdr1 => s

/-! ### Buffer bytes -/

/-- `B(x)` of R65: the buffer byte at an offset, 0 for a reserved byte (R47). -/
def State.windowByte (s : State) (a : Nat) : Byte :=
  match region a with
  | .pdu => s.byteAt a
  | .tx => s.byteAt a
  | .rx => s.byteAt a
  | .reserved => 0
  | .registers => 0
  | .unmapped => 0

/-- The host writes a byte: the PDU and RX buffers store it, the TX buffer (R63) and reserved bytes (R47) ignore it. -/
def State.writeWindowByte (s : State) (a : Nat) (b : Byte) : State :=
  match region a with
  | .pdu => { s with mem := s.mem.write a b }
  | .rx => { s with mem := s.mem.write a b }
  | .tx => s
  | .reserved => s
  | .registers => s
  | .unmapped => s

/-- A 32-bit read of a buffer window: four bytes, little-endian (R65). -/
def State.windowWord (s : State) (a : Nat) : Word :=
  s.windowByte (a + 3) ++ s.windowByte (a + 2) ++ s.windowByte (a + 1) ++ s.windowByte a

/-- A 32-bit write to a buffer window: four byte writes, little-endian (R65). -/
def State.writeWindowWord (s : State) (a : Nat) (v : Word) : State :=
  (((s.writeWindowByte a (v.extractLsb' 0 8)).writeWindowByte (a + 1) (v.extractLsb' 8 8)).writeWindowByte
    (a + 2) (v.extractLsb' 16 8)).writeWindowByte (a + 3) (v.extractLsb' 24 8)

/-! ### Legal accesses -/

/-- The u32 a legal 8-bit read returns (R14, R64). -/
def State.busRead8 (s : State) (a : Addr) : Word := (s.windowByte a.toNat).setWidth 32

/-- The u32 a legal 32-bit read returns (R64, R65). -/
def State.busRead32 (s : State) (a : Addr) : Word :=
  match regAt a with
  | some r => s.readReg r
  | none => s.windowWord a.toNat

/-- A legal 8-bit write (R64). -/
def State.busWrite8 (s : State) (a : Addr) (v : Byte) : State := s.writeWindowByte a.toNat v

/-- A legal 32-bit write to an offset other than `CMD` (R64, R65). -/
def State.busWrite32 (s : State) (a : Addr) (v : Word) : State :=
  match regAt a with
  | some r => s.writeReg r v
  | none => s.writeWindowWord a.toNat v

end Sys2Proof.Machine
end

