-- ==== Sys2Proof/Machine/Ascii.lean ====
section
/-! DEFINITION. ASCII framing (45_ascii.md R230 to R236): hexadecimal text, ASCII_ENCODE, ASCII_DECODE. -/

namespace Sys2Proof.Machine

/-- `digit(v)`: `0`-`9`, `A`-`F` (R231). -/
def hexDigit (v : BitVec 4) : Byte :=
  if v.toNat < 10 then BitVec.ofNat 8 (0x30 + v.toNat) else BitVec.ofNat 8 (0x41 + (v.toNat - 10))

/-- `hex(s)`: two characters a byte, high nibble first, upper case (R231, R69). -/
def hex : List Byte → List Byte
  | [] => []
  | b :: bs => hexDigit (b.extractLsb' 4 4) :: hexDigit (b.extractLsb' 0 4) :: hex bs

/-- `nib(ch)`: both letter cases are accepted; `none` is INVALID (R232). -/
def nib (ch : Byte) : Option (BitVec 4) :=
  if 0x30 ≤ ch.toNat ∧ ch.toNat ≤ 0x39 then some (BitVec.ofNat 4 (ch.toNat - 0x30))
  else if 0x41 ≤ ch.toNat ∧ ch.toNat ≤ 0x46 then some (BitVec.ofNat 4 (ch.toNat - 0x41 + 10))
  else if 0x61 ≤ ch.toNat ∧ ch.toNat ≤ 0x66 then some (BitVec.ofNat 4 (ch.toNat - 0x61 + 10))
  else none

/-- The bytes of a hex text, `(nib(c) << 4) | nib(c')` for each pair of characters; `none` when a character is invalid (R235 check 6 and
the line after it; log 19). -/
def unhex : List Byte → Option (List Byte)
  | [] => some []
  | [_] => none
  | c :: c' :: cs =>
    match nib c, nib c', unhex cs with
    | some h, some l, some bs => some ((h ++ l) :: bs)
    | _, _, _ => none

/-- The ASCII ADU of a PDU (R230). -/
def asciiFrame (slave : Byte) (pdu : List Byte) : List Byte :=
  [charColon] ++ hex ((slave :: pdu) ++ [lrc (slave :: pdu)]) ++ [charCr, charLf]

/-- The body of ASCII_ENCODE (R233): check 1. -/
def asciiEncode (slave : Byte) (s : State) : Except CmdError State :=
  match checkPdu s with
  | .error e => .error e
  | .ok pdu =>
    .ok (((s.putTx (asciiFrame slave pdu)).latch .ascii slave (functionCode pdu) 0).complete
      (Instr.opcode (.asciiEncode slave)) .ok 0)

/-- ASCII_ENCODE (R233). -/
def execAsciiEncode (a8 : Byte) (s : State) : Result := settle (Instr.opcode (.asciiEncode a8)) s (asciiEncode a8 s)

/-- Checks 7 to 9 of ASCII_DECODE on the decoded bytes `d`, the last of which is the received LRC (R235). -/
def asciiDecodeBytes (s : State) (d : List Byte) : Except CmdError State :=
  let body := d.take (d.length - 1)
  if lrc body ≠ d.getD (d.length - 1) 0 then .error (.frame .checksum)
  else if body.headD 0 ≠ s.req.slave then .error (.frame .slaveMismatch)
  else classifyAndFinish (Instr.opcode .asciiDecode) s body.tail

/-- The body of ASCII_DECODE (R235): checks 1 to 9 in the rule's order. -/
def asciiDecode (s : State) : Except CmdError State :=
  let m := s.rxLen.toNat
  if s.req.mode ≠ .ascii then .error (.param .noRequest)
  else if m < asciiMinChars ∨ m > asciiMaxChars then .error (.frame .badSize)
  else if s.rx 0 ≠ charColon then .error (.frame .noStart)
  else if s.rx (m - 2) ≠ charCr ∨ s.rx (m - 1) ≠ charLf then .error (.frame .noEnd)
  else if (m - 1) % 2 ≠ 0 then .error (.frame .oddLength)
  else
    match unhex (s.rxSlice 1 (m - 2)) with
    | none => .error (.frame .badHex)
    | some d => asciiDecodeBytes s d

/-- ASCII_DECODE (R235). -/
def execAsciiDecode (s : State) : Result := settle (Instr.opcode .asciiDecode) s (asciiDecode s)

end Sys2Proof.Machine
end

