-- ==== Sys2Proof/Machine/Crc.lean ====
section
/-! DEFINITION. The CRC-16 generator (41_crc16.md R130 to R137): the table, the function, and the commands CRC_INIT and CRC_BYTE. -/

namespace Sys2Proof.Machine

/-! ### The table `T` (R131, R137), the block's read-only store (10_state.md R45) -/

/-- `T[0x00]` to `T[0x0F]` (R137). -/
def crcRow0 : List Half :=
  [0x0000, 0xC0C1, 0xC181, 0x0140, 0xC301, 0x03C0, 0x0280, 0xC241,
   0xC601, 0x06C0, 0x0780, 0xC741, 0x0500, 0xC5C1, 0xC481, 0x0440]

/-- `T[0x10]` to `T[0x1F]` (R137). -/
def crcRow1 : List Half :=
  [0xCC01, 0x0CC0, 0x0D80, 0xCD41, 0x0F00, 0xCFC1, 0xCE81, 0x0E40,
   0x0A00, 0xCAC1, 0xCB81, 0x0B40, 0xC901, 0x09C0, 0x0880, 0xC841]

/-- `T[0x20]` to `T[0x2F]` (R137). -/
def crcRow2 : List Half :=
  [0xD801, 0x18C0, 0x1980, 0xD941, 0x1B00, 0xDBC1, 0xDA81, 0x1A40,
   0x1E00, 0xDEC1, 0xDF81, 0x1F40, 0xDD01, 0x1DC0, 0x1C80, 0xDC41]

/-- `T[0x30]` to `T[0x3F]` (R137). -/
def crcRow3 : List Half :=
  [0x1400, 0xD4C1, 0xD581, 0x1540, 0xD701, 0x17C0, 0x1680, 0xD641,
   0xD201, 0x12C0, 0x1380, 0xD341, 0x1100, 0xD1C1, 0xD081, 0x1040]

/-- `T[0x40]` to `T[0x4F]` (R137). -/
def crcRow4 : List Half :=
  [0xF001, 0x30C0, 0x3180, 0xF141, 0x3300, 0xF3C1, 0xF281, 0x3240,
   0x3600, 0xF6C1, 0xF781, 0x3740, 0xF501, 0x35C0, 0x3480, 0xF441]

/-- `T[0x50]` to `T[0x5F]` (R137). -/
def crcRow5 : List Half :=
  [0x3C00, 0xFCC1, 0xFD81, 0x3D40, 0xFF01, 0x3FC0, 0x3E80, 0xFE41,
   0xFA01, 0x3AC0, 0x3B80, 0xFB41, 0x3900, 0xF9C1, 0xF881, 0x3840]

/-- `T[0x60]` to `T[0x6F]` (R137). -/
def crcRow6 : List Half :=
  [0x2800, 0xE8C1, 0xE981, 0x2940, 0xEB01, 0x2BC0, 0x2A80, 0xEA41,
   0xEE01, 0x2EC0, 0x2F80, 0xEF41, 0x2D00, 0xEDC1, 0xEC81, 0x2C40]

/-- `T[0x70]` to `T[0x7F]` (R137). -/
def crcRow7 : List Half :=
  [0xE401, 0x24C0, 0x2580, 0xE541, 0x2700, 0xE7C1, 0xE681, 0x2640,
   0x2200, 0xE2C1, 0xE381, 0x2340, 0xE101, 0x21C0, 0x2080, 0xE041]

/-- `T[0x80]` to `T[0x8F]` (R137). -/
def crcRow8 : List Half :=
  [0xA001, 0x60C0, 0x6180, 0xA141, 0x6300, 0xA3C1, 0xA281, 0x6240,
   0x6600, 0xA6C1, 0xA781, 0x6740, 0xA501, 0x65C0, 0x6480, 0xA441]

/-- `T[0x90]` to `T[0x9F]` (R137). -/
def crcRow9 : List Half :=
  [0x6C00, 0xACC1, 0xAD81, 0x6D40, 0xAF01, 0x6FC0, 0x6E80, 0xAE41,
   0xAA01, 0x6AC0, 0x6B80, 0xAB41, 0x6900, 0xA9C1, 0xA881, 0x6840]

/-- `T[0xA0]` to `T[0xAF]` (R137). -/
def crcRowA : List Half :=
  [0x7800, 0xB8C1, 0xB981, 0x7940, 0xBB01, 0x7BC0, 0x7A80, 0xBA41,
   0xBE01, 0x7EC0, 0x7F80, 0xBF41, 0x7D00, 0xBDC1, 0xBC81, 0x7C40]

/-- `T[0xB0]` to `T[0xBF]` (R137). -/
def crcRowB : List Half :=
  [0xB401, 0x74C0, 0x7580, 0xB541, 0x7700, 0xB7C1, 0xB681, 0x7640,
   0x7200, 0xB2C1, 0xB381, 0x7340, 0xB101, 0x71C0, 0x7080, 0xB041]

/-- `T[0xC0]` to `T[0xCF]` (R137). -/
def crcRowC : List Half :=
  [0x5000, 0x90C1, 0x9181, 0x5140, 0x9301, 0x53C0, 0x5280, 0x9241,
   0x9601, 0x56C0, 0x5780, 0x9741, 0x5500, 0x95C1, 0x9481, 0x5440]

/-- `T[0xD0]` to `T[0xDF]` (R137). -/
def crcRowD : List Half :=
  [0x9C01, 0x5CC0, 0x5D80, 0x9D41, 0x5F00, 0x9FC1, 0x9E81, 0x5E40,
   0x5A00, 0x9AC1, 0x9B81, 0x5B40, 0x9901, 0x59C0, 0x5880, 0x9841]

/-- `T[0xE0]` to `T[0xEF]` (R137). -/
def crcRowE : List Half :=
  [0x8801, 0x48C0, 0x4980, 0x8941, 0x4B00, 0x8BC1, 0x8A81, 0x4A40,
   0x4E00, 0x8EC1, 0x8F81, 0x4F40, 0x8D01, 0x4DC0, 0x4C80, 0x8C41]

/-- `T[0xF0]` to `T[0xFF]` (R137). -/
def crcRowF : List Half :=
  [0x4400, 0x84C1, 0x8581, 0x4540, 0x8701, 0x47C0, 0x4680, 0x8641,
   0x8201, 0x42C0, 0x4380, 0x8341, 0x4100, 0x81C1, 0x8081, 0x4040]

/-- The table `T` as R137 prints it. -/
def crcTable : List Half :=
  crcRow0 ++ crcRow1 ++ crcRow2 ++ crcRow3 ++ crcRow4 ++ crcRow5 ++ crcRow6 ++ crcRow7
    ++ crcRow8 ++ crcRow9 ++ crcRowA ++ crcRowB ++ crcRowC ++ crcRowD ++ crcRowE ++ crcRowF

/-- One of the eight iterations of R131. -/
def crcShift (c : Half) : Half := if c.getLsbD 0 then (c >>> 1) ^^^ crcPoly else c >>> 1

/-- The entry `T[i]` as the loop of R131 computes it; the table above is these values (41_crc16.md R131, last sentence). -/
def crcEntry (i : Byte) : Half :=
  crcShift (crcShift (crcShift (crcShift (crcShift (crcShift (crcShift (crcShift (i.setWidth 16))))))))

/-- `T[i]`. -/
def crcLookup (i : Byte) : Half := crcTable.getD i.toNat 0

/-! ### The function -/

/-- Folds one byte: `acc = (acc >> 8) ^ T[(acc ^ byte) & 0xFF]` (R130, R133). -/
def crcFold (acc : Half) (b : Byte) : Half := (acc >>> 8) ^^^ crcLookup (acc.setWidth 8 ^^^ b)

/-- `crc16(s)` (R130). -/
def crc16 (s : List Byte) : Half := s.foldl crcFold crcInitVal

/-! ### The commands -/

/-- CRC_INIT (R132). -/
def execCrcInit (s : State) : Result :=
  .next (({ s with crcAcc := crcInitVal } : State).complete (Instr.opcode .crcInit) .ok 0)

/-- CRC_BYTE (R133). -/
def execCrcByte (a8 : Byte) (s : State) : Result :=
  .next (({ s with crcAcc := crcFold s.crcAcc a8 } : State).complete (Instr.opcode (.crcByte a8)) .ok 0)

end Sys2Proof.Machine
end

