-- ==== Sys2Proof/Machine/Rtu.lean ====
section
/-! DEFINITION. RTU framing (44_rtu.md R200 to R211): the response-length prediction, the delay, RTU_ENCODE, RTU_RXLEN, RTU_DECODE. -/

namespace Sys2Proof.Machine

/-- The RTU ADU of a PDU (R200): the CRC is appended low byte first. -/
def rtuFrame (slave : Byte) (pdu : List Byte) : List Byte :=
  (slave :: pdu) ++ le16 (crc16 (slave :: pdu))

/-- The (read) quantity of a request, PDU bytes 3 and 4, big-endian (R203). -/
def rtuQuantity (pdu : List Byte) : Nat := (be16Of (pdu.getD 3 0) (pdu.getD 4 0)).toNat

/-- Whether a function code bears a quantity: 0x01, 0x02, 0x03, 0x04, 0x17 (R203). -/
def quantityBearing (fc : Byte) : Bool := fc == 0x01 || fc == 0x02 || fc == 0x03 || fc == 0x04 || fc == 0x17

/-- The predicted number of response data bytes (R203). -/
def rtuPredictData (pdu : List Byte) : Nat :=
  let fc := functionCode pdu
  if fc = 0x01 ∨ fc = 0x02 then 1 + (rtuQuantity pdu + 7) / 8
  else if fc = 0x03 ∨ fc = 0x04 ∨ fc = 0x17 then 1 + 2 * rtuQuantity pdu
  else if fc = 0x05 ∨ fc = 0x06 ∨ fc = 0x0F ∨ fc = 0x10 then 4
  else if fc = 0x16 then 6
  else 0

/-- `rtu_predict(pdu)` (R203): checks 2 and 3 of RTU_ENCODE. -/
def rtuPredict (pdu : List Byte) : Except CmdError Nat :=
  if quantityBearing (functionCode pdu) = true ∧ pdu.length < 5 then .error (.param .predShort)
  else
    let p := rtuMin + rtuPredictData pdu
    if p > rtuMax then .error (.param .predRange) else .ok p

/-- `rtu_delay(baud, N)` in microseconds (R205). -/
def rtuDelay (baud n : Nat) : Nat :=
  if 1 ≤ baud ∧ baud ≤ baudThreshold then (charNum / baud) * n + frameNum / baud
  else charFallback * n + frameFallback

/-- The body of RTU_ENCODE (R202): check 1, then checks 2 and 3 of the prediction. -/
def rtuEncode (slave : Byte) (s : State) : Except CmdError State :=
  match checkPdu s with
  | .error e => .error e
  | .ok pdu =>
    match rtuPredict pdu with
    | .error e => .error e
    | .ok p =>
      .ok ((({ s.putTx (rtuFrame slave pdu) with
          predLen := BitVec.ofNat 10 p
          delayUs := BitVec.ofNat 64 (rtuDelay s.baud.toNat (pdu.length + 3 + p)) } : State).latch
            .rtu slave (functionCode pdu) 0).complete (Instr.opcode (.rtuEncode slave)) .ok 0)

/-- RTU_ENCODE (R202). -/
def execRtuEncode (a8 : Byte) (s : State) : Result := settle (Instr.opcode (.rtuEncode a8)) s (rtuEncode a8 s)

/-- The body of RTU_RXLEN (R208): checks 1 to 3; the normal test is made first (R116). Check 2 has a lower bound only:
"`RX_LEN > 4` is accepted" (log 8). -/
def rtuRxlen (s : State) : Except CmdError State :=
  if s.req.mode ≠ .rtu then .error (.param .noRequest)
  else if s.rxLen.toNat < rtuMin then .error (.frame .short)
  else if s.rx 1 = s.req.fc then
    .ok (({ s with rxExpect := s.predLen } : State).complete (Instr.opcode .rtuRxlen) .ok 0)
  else if s.rx 1 = s.req.fc ||| excFlag then
    .ok (({ s with rxExpect := BitVec.ofNat 10 rtuExc } : State).complete (Instr.opcode .rtuRxlen) .ok 0)
  else .error (.frame .funcMismatch)

/-- RTU_RXLEN (R208). -/
def execRtuRxlen (s : State) : Result := settle (Instr.opcode .rtuRxlen) s (rtuRxlen s)

/-- The body of RTU_DECODE (R210): checks 1 to 5 in the rule's order. -/
def rtuDecode (s : State) : Except CmdError State :=
  let m := s.rxLen.toNat
  if s.req.mode ≠ .rtu then .error (.param .noRequest)
  else if m < rtuMin ∨ m > rtuMax then .error (.frame .badSize)
  else if crc16 (s.rxSlice 0 (m - 2)) ≠ le16Of (s.rx (m - 2)) (s.rx (m - 1)) then .error (.frame .checksum)
  else if s.rx 0 ≠ s.req.slave then .error (.frame .slaveMismatch)
  else classifyAndFinish (Instr.opcode .rtuDecode) s (s.rxSlice 1 (m - 2))

/-- RTU_DECODE (R210). -/
def execRtuDecode (s : State) : Result := settle (Instr.opcode .rtuDecode) s (rtuDecode s)

end Sys2Proof.Machine
end

