-- ==== Sys2Proof/Machine/Tcp.lean ====
section
/-! DEFINITION. TCP framing and the MBAP header parser (43_tcp_mbap.md R170 to R181): TCP_ENCODE, TCP_REPLY, MBAP_PARSE, TCP_DECODE, TCP_SPLIT. -/

namespace Sys2Proof.Machine

/-- The TCP ADU of a PDU (R170, R171): transaction id, protocol id 0, length of unit id and PDU, unit id, PDU. -/
def tcpFrame (tid : Half) (unit : Byte) (pdu : List Byte) : List Byte :=
  be16 tid ++ [0x00, 0x00] ++ be16 (BitVec.ofNat 16 (1 + pdu.length)) ++ [unit] ++ pdu

/-- `mbap_header()` (R175): checks a and b. -/
def mbapHeader (s : State) : Except CmdError Header :=
  if s.rxLen.toNat < tcpHdr then .error (.frame .short)
  else
    let len := be16Of (s.rx 4) (s.rx 5)
    if len.toNat = 0 ∨ len.toNat > mbapLenMax then .error (.frame .badLength)
    else .ok { tid := be16Of (s.rx 0) (s.rx 1), pid := be16Of (s.rx 2) (s.rx 3), len := len, unit := s.rx 6 }

/-- The body of TCP_ENCODE (R172): check 1, then the frame with the next transaction id (R173). -/
def tcpEncode (slave : Byte) (s : State) : Except CmdError State :=
  match checkPdu s with
  | .error e => .error e
  | .ok pdu =>
    let t := s.tid + 1
    .ok ((({ s.putTx (tcpFrame t slave pdu) with tid := t } : State).latch .tcp slave (functionCode pdu) t).complete
      (Instr.opcode (.tcpEncode slave)) .ok 0)

/-- TCP_ENCODE (R172). -/
def execTcpEncode (a8 : Byte) (s : State) : Result := settle (Instr.opcode (.tcpEncode a8)) s (tcpEncode a8 s)

/-- The body of TCP_REPLY (R174): it writes neither `TID` nor the request context. -/
def tcpReply (unit : Byte) (tid : Half) (s : State) : Except CmdError State :=
  match checkPdu s with
  | .error e => .error e
  | .ok pdu => .ok ((s.putTx (tcpFrame tid unit pdu)).complete (Instr.opcode (.tcpReply unit tid)) .ok 0)

/-- TCP_REPLY (R174). -/
def execTcpReply (a8 : Byte) (a16 : Half) (s : State) : Result :=
  settle (Instr.opcode (.tcpReply a8 a16)) s (tcpReply a8 a16 s)

/-- The body of MBAP_PARSE (R176). Its `RX_LEN` check has a lower bound only: "`RX_LEN > 7` is accepted" (log 8). -/
def mbapParse (s : State) : Except CmdError State :=
  match mbapHeader s with
  | .error e => .error e
  | .ok h =>
    .ok (({ s with hdr := h, rxExpect := BitVec.ofNat 10 (6 + h.len.toNat) } : State).complete
      (Instr.opcode .mbapParse) .ok 0)

/-- MBAP_PARSE (R176). -/
def execMbapParse (s : State) : Result := settle (Instr.opcode .mbapParse) s (mbapParse s)

/-- The body of TCP_DECODE (R178): checks 1 to 9 in the rule's order. -/
def tcpDecode (s : State) : Except CmdError State :=
  if s.req.mode ≠ .tcp then .error (.param .noRequest)
  else
    match mbapHeader s with
    | .error e => .error e
    | .ok h =>
      if s.rxLen.toNat ≠ 6 + h.len.toNat then .error (.frame .lengthMismatch)
      else if h.tid ≠ s.req.tid then .error (.frame .tidMismatch)
      else if h.pid ≠ 0 then .error (.frame .pidMismatch)
      else if h.unit ≠ s.req.slave then .error (.frame .slaveMismatch)
      else if h.len = 1 then .error (.frame .noFunc)
      else classifyAndFinish (Instr.opcode .tcpDecode) s (s.rxSlice 7 (6 + h.len.toNat))

/-- TCP_DECODE (R178). -/
def execTcpDecode (s : State) : Result := settle (Instr.opcode .tcpDecode) s (tcpDecode s)

/-- The body of TCP_SPLIT (R180): checks 1 to 4; neither protocol id nor unit id is checked. -/
def tcpSplit (s : State) : Except CmdError State :=
  match mbapHeader s with
  | .error e => .error e
  | .ok h =>
    if s.rxLen.toNat ≠ 6 + h.len.toNat then .error (.frame .lengthMismatch)
    else if h.len = 1 then .error (.frame .noFunc)
    else
      .ok ((({ s with hdr := h } : State).putPdu (s.rxSlice 7 (6 + h.len.toNat))).complete
        (Instr.opcode .tcpSplit) .ok 0)

/-- TCP_SPLIT (R180). -/
def execTcpSplit (s : State) : Result := settle (Instr.opcode .tcpSplit) s (tcpSplit s)

end Sys2Proof.Machine
end

