-- ==== Sys2Proof/Machine/Dispatch.lean ====
section
/-! DEFINITION. One arm per command: its meaning (30_encoding.md R93). -/

namespace Sys2Proof.Machine

/-- The effect of a command on the state, atomic (40_common.md R110). -/
def exec (i : Instr) (s : State) : Host.Outcome State Fault Refusal :=
  match i with
  | .crcInit => Sys2Proof.Machine.execCrcInit s
  | .crcByte a8 => Sys2Proof.Machine.execCrcByte a8 s
  | .lrcReset => Sys2Proof.Machine.execLrcReset s
  | .lrcPush a8 => Sys2Proof.Machine.execLrcPush a8 s
  | .tcpEncode a8 => Sys2Proof.Machine.execTcpEncode a8 s
  | .tcpReply a8 a16 => Sys2Proof.Machine.execTcpReply a8 a16 s
  | .mbapParse => Sys2Proof.Machine.execMbapParse s
  | .tcpDecode => Sys2Proof.Machine.execTcpDecode s
  | .tcpSplit => Sys2Proof.Machine.execTcpSplit s
  | .rtuEncode a8 => Sys2Proof.Machine.execRtuEncode a8 s
  | .rtuRxlen => Sys2Proof.Machine.execRtuRxlen s
  | .rtuDecode => Sys2Proof.Machine.execRtuDecode s
  | .asciiEncode a8 => Sys2Proof.Machine.execAsciiEncode a8 s
  | .asciiDecode => Sys2Proof.Machine.execAsciiDecode s

end Sys2Proof.Machine
end

