-- ==== Sys2Proof/Machine/Serve.lean ====
section
/-! DEFINITION. Serving one event of the outside world: a command word, another bus access, or reset (20_memory.md R64, R67, R70;
30_encoding.md R90, R95; 70_reset_and_hazards.md R280). -/

namespace Sys2Proof.Machine

/-- A command word written to `CMD` (R90): the command it selects is executed at once; a word that selects none only writes `STATUS` (R95). -/
def runCommand (w : Word) (s : State) : Result :=
  match decode w with
  | .ok i => exec i s
  | .error (.illegalOpcode op) => .next (s.illegal op)

/-- Records what the block answered to the access being served (log 6). -/
def State.answer (s : State) (r : Response) : State := { s with response := r }

/-- Reset (R280): every register at its reset value, no byte written, and a fresh draw of the buffers (R46; log 5). The host's accesses that
are still to come are the host's, not the block's, and stay (log 14). -/
def State.afterReset (s : State) : State :=
  { State.reset with resets := s.resets + 1, pending := s.pending }

/-- Serves one event. An access that is not legal is a bus error (R64). -/
def serve (e : Event) (s : State) : Result :=
  match e with
  | .read8 a => if legal8 a then .next (s.answer (.data (s.busRead8 a))) else .fault (.busError e)
  | .write8 a v => if legal8 a then .next ((s.busWrite8 a v).answer .written) else .fault (.busError e)
  | .read32 a => if legal32 a then .next (s.answer (.data (s.busRead32 a))) else .fault (.busError e)
  | .write32 a v =>
    if a = Reg.offset .cmd then runCommand v (s.answer .written)
    else if legal32 a then .next ((s.busWrite32 a v).answer .written)
    else .fault (.busError e)
  | .reset => .next s.afterReset

end Sys2Proof.Machine
end

