-- ==== Sys2Proof/Machine/Step.lean ====
section
/-! DEFINITION. One step: the block serves the next event, in the order the events are issued (20_memory.md R70). -/

namespace Sys2Proof.Machine

/-- One step. With nothing to serve the block is idle and holds its state (60_exceptions.md R267; log 2). -/
def step (s : State) : Host.Outcome State Fault Refusal :=
  match s.pending with
  | [] => .next s
  | e :: rest => serve e { s with pending := rest }

/-- The state whose next event is the host's 32-bit write of the command word to `CMD` (R90): the block fetches its next command there
(log 16). -/
def State.withFetchWord (s : State) (nbits w : Nat) : State :=
  { s with pending := .write32 (Reg.offset .cmd) (tableWord nbits w) :: s.pending }

end Sys2Proof.Machine
end

