-- ==== Sys2Proof/Machine/HostProgram.lean ====
section
/-! DEFINITION. The spec's syntax for host programs (30_encoding.md R97) and its pseudo-instructions (R98), as the events they stand for. -/

namespace Sys2Proof.Machine.Prog

/-- `W32 <reg>, <value>` (R97). -/
def w32 (r : Reg) (v : Word) : Event := .write32 r.offset v

/-- `R32 <reg>` (R97). -/
def r32 (r : Reg) : Event := .read32 r.offset

/-- `W8 <offset>, <byte>` (R97). -/
def w8 (a : Addr) (b : Byte) : Event := .write8 a b

/-- `R8 <offset>` (R97). -/
def r8 (a : Addr) : Event := .read8 a

/-- `<MNEMONIC> [<a8>] [, <a16>]` (R97). -/
def command (i : Instr) : Event := .write32 (Reg.offset .cmd) (encode i)

/-- Byte writes at rising offsets, the first part of SETPDU and SETRX (R98). -/
def writeBytes : Nat → List Byte → List Event
  | _, [] => []
  | a, b :: bs => w8 (BitVec.ofNat 12 a) b :: writeBytes (a + 1) bs

/-- `SETPDU b0 ... bk-1` (R98). -/
def setPdu (bs : List Byte) : List Event := writeBytes pduBase bs ++ [w32 .pduLen (BitVec.ofNat 32 bs.length)]

/-- `SETRX b0 ... bk-1` (R98); SETRXS is SETRX of the characters' codes. -/
def setRx (bs : List Byte) : List Event := writeBytes rxBase bs ++ [w32 .rxLen (BitVec.ofNat 32 bs.length)]

/-- `CRC16 b0 ... bk-1` (R98). -/
def crc16 (bs : List Byte) : List Event := command .crcInit :: bs.map (fun b => command (.crcByte b))

/-- `LRCSUM b0 ... bk-1` (R98). -/
def lrcSum (bs : List Byte) : List Event := command .lrcReset :: bs.map (fun b => command (.lrcPush b))

/-- `NOP` (R98). -/
def nop : Event := r32 .status

end Sys2Proof.Machine.Prog
end

