-- ==== Sys2Proof/Safety.lean ====
section
/-! DEFINITION. The terms claims are stated in: legal inputs, what a host may change between two commands, and the invariant of the block. -/

namespace Sys2Proof.Machine

/-- "No bus error" (20_memory.md R64, D43): every access still to be served is legal. -/
def State.LegalInputs (s : State) : Prop := ∀ e ∈ s.pending, e.legal = true

/-- `t` and `s` hold the same byte at every offset outside `[a, a + n)`. -/
def SameOutside (a n : Nat) (s t : State) : Prop := ∀ x, ¬ (a ≤ x ∧ x < a + n) → t.byteAt x = s.byteAt x

/-- `t` and `s` hold the same byte at every offset. -/
def SameBytes (s t : State) : Prop := ∀ x, t.byteAt x = s.byteAt x

/-- The receive buffer of `s` holds exactly the frame `f`: `RX_LEN` is its length and `RX[0 .. RX_LEN)` its bytes (R76). -/
def State.Received (s : State) (f : List Byte) : Prop := s.rxLen.toNat = f.length ∧ s.rxFrame = f

/-- `t` is a state the host can bring about from `s` without issuing an encode: the request context and `PRED_LEN` are as `s` left them
(R33, R287); every other register and every buffer byte may differ. -/
def SameTransaction (s t : State) : Prop := t.req = s.req ∧ t.predLen = s.predLen

/-- The command `i` fails on `s` with class `r` and cause `c`: it ends in the next state in which `STATUS` alone has changed (40_common.md
R111). -/
def FailsWith (i : Instr) (s : State) (r : Res) (c : Cause) : Prop :=
  exec i s = .next { s with status := ⟨r, c, 0, i.opcode⟩ }

/-- The MBAP length field in `RX` (43_tcp_mbap.md R175). -/
def State.mbapLen (s : State) : Nat := (s.rx 4).toNat * 256 + (s.rx 5).toNat

/-- The MBAP transaction id in `RX` (R175). -/
def State.mbapTid (s : State) : Nat := (s.rx 0).toNat * 256 + (s.rx 1).toNat

/-- The MBAP protocol id in `RX` (R175). -/
def State.mbapPid (s : State) : Nat := (s.rx 2).toNat * 256 + (s.rx 3).toNat

/-- What MBAP_PARSE does once its `RX_LEN` check has passed (R175, R176): the length check, and on a legal length the header fields and the
total frame length. -/
def MbapParseOutcome (s : State) : Prop :=
  (s.mbapLen = 0 ∨ 254 < s.mbapLen → FailsWith .mbapParse s .frameErr .badLength) ∧
  (1 ≤ s.mbapLen → s.mbapLen ≤ 254 →
    exec .mbapParse s = .next { s with
      hdr := ⟨BitVec.ofNat 16 s.mbapTid, BitVec.ofNat 16 s.mbapPid, BitVec.ofNat 16 s.mbapLen, s.rx 6⟩
      rxExpect := BitVec.ofNat 10 (6 + s.mbapLen)
      status := ⟨.ok, .none, 0, 0x22⟩ })

/-- What RTU_RXLEN does with a request encoded once its `RX_LEN` check has passed (44_rtu.md R208): by `RX[1]`, the prediction, the size of an
exception reply, or the error of check 3. -/
def RtuRxlenOutcome (s : State) : Prop :=
  (s.rx 1 = s.req.fc →
    exec .rtuRxlen s = .next { s with rxExpect := s.predLen, status := ⟨.ok, .none, 0, 0x31⟩ }) ∧
  (s.rx 1 ≠ s.req.fc → s.rx 1 = s.req.fc ||| 0x80 →
    exec .rtuRxlen s = .next { s with rxExpect := 5, status := ⟨.ok, .none, 0, 0x31⟩ }) ∧
  (s.rx 1 ≠ s.req.fc → s.rx 1 ≠ s.req.fc ||| 0x80 → FailsWith .rtuRxlen s .frameErr .funcMismatch)

/-- A client decode of the response PDU `rsp` passes its last check as a normal reply (40_common.md R115 (a)). -/
def NormalReply (s : State) (rsp : List Byte) : Prop := rsp.head? = some s.req.fc ∧ 2 ≤ rsp.length

/-- A client decode of the response PDU `rsp` passes its last check as an exception reply with code `e` (R115 (b), R116). -/
def ExceptionReply (s : State) (rsp : List Byte) (e : Byte) : Prop :=
  rsp = [s.req.fc ||| 0x80, e] ∧ s.req.fc ||| 0x80 ≠ s.req.fc

/-- The client decode `i` ends well on the response PDU `rsp` with result `r` and exception code `e` (R118): the PDU buffer holds `rsp`,
`PDU_LEN` its length, and nothing else but `STATUS` has changed. -/
def DecodesTo (i : Instr) (s : State) (rsp : List Byte) (r : Res) (e : Byte) : Prop :=
  ∃ t, exec i s = .next t ∧
    { t with mem := s.mem } = { s with pduLen := BitVec.ofNat 9 rsp.length, status := ⟨r, .none, e, i.opcode⟩ } ∧
    t.bytes 0x100 rsp.length = rsp ∧ SameOutside 0x100 rsp.length s t

/-- The errors of the last check of a client decode (R115): the function code is tested first, then the data's length. -/
def ReplyFailures (i : Instr) (s : State) (rsp : List Byte) : Prop :=
  (rsp.head? ≠ some s.req.fc → rsp.head? ≠ some (s.req.fc ||| 0x80) → FailsWith i s .frameErr .funcMismatch) ∧
  (rsp.head? = some s.req.fc ∨ rsp.head? = some (s.req.fc ||| 0x80) → rsp.length = 1 →
    FailsWith i s .frameErr .emptyData) ∧
  (rsp.head? = some (s.req.fc ||| 0x80) → s.req.fc ||| 0x80 ≠ s.req.fc → 3 ≤ rsp.length →
    FailsWith i s .frameErr .excLength)

/-- What the last check and the end of a client decode do with the response PDU `rsp` (R115, R118). -/
def ReplyOutcome (i : Instr) (s : State) (rsp : List Byte) : Prop :=
  ReplyFailures i s rsp ∧ (NormalReply s rsp → DecodesTo i s rsp .ok 0) ∧
  ∀ e, ExceptionReply s rsp e → DecodesTo i s rsp .exception e

/-- Each pair of characters of `cs` is the high and the low nibble of the byte of `bs` in its place (45_ascii.md R235). -/
def HexTextIs (cs bs : List Byte) : Prop :=
  cs.length = 2 * bs.length ∧ ∀ j < bs.length, ∃ h l, nib (cs.getD (2 * j) 0) = some h ∧ nib (cs.getD (2 * j + 1) 0) = some l ∧
    (bs.getD j 0).toNat = h.toNat * 16 + l.toNat

/-- The offsets of the three buffer windows, reserved bytes included (20_memory.md R64). -/
abbrev InBufferWindow (a : Nat) : Prop :=
  (0x100 ≤ a ∧ a ≤ 0x1FF) ∨ (0x400 ≤ a ∧ a ≤ 0x7FF) ∨ (0x800 ≤ a ∧ a ≤ 0xBFF)

/-- Two states agree on everything a frame command reads (10_state.md R50): `TID`, the request context, `PRED_LEN`, `BAUD`, and the
operands `PDU_LEN`, `RX_LEN`, the PDU and RX buffers. -/
structure FrameInputsAgree (s t : State) : Prop where
  tid : t.tid = s.tid
  req : t.req = s.req
  predLen : t.predLen = s.predLen
  baud : t.baud = s.baud
  pduLen : t.pduLen = s.pduLen
  rxLen : t.rxLen = s.rxLen
  pduBytes : ∀ x < pduSize, t.byteAt (pduBase + x) = s.byteAt (pduBase + x)
  rxBytes : ∀ x < rxSize, t.byteAt (rxBase + x) = s.byteAt (rxBase + x)

/-- The commands of the TCP, RTU and ASCII families: all but the CRC and LRC commands. -/
def isFrameCommand (i : Instr) : Prop := 0x20 ≤ i.opcode.toNat

/-- The commands CRC_INIT and CRC_BYTE. -/
def isCrcCommand (i : Instr) : Bool := decide (i.opcode.toNat < 0x10)

/-- The commands LRC_RESET and LRC_PUSH. -/
def isLrcCommand (i : Instr) : Bool := decide (0x10 ≤ i.opcode.toNat ∧ i.opcode.toNat < 0x20)

/-- Replaces each letter `A` to `F` of a text by its lower-case form (45_ascii.md R236). -/
def lowerHex (cs : List Byte) : List Byte := cs.map fun c => if 0x41 ≤ c.toNat ∧ c.toNat ≤ 0x46 then c + 0x20 else c

/-- The relations among the fields of State that every rule keeps. -/
structure State.Inv (s : State) : Prop where
  /-- The buffers' canonical form; only buffer bytes are ever stored (R62; log 4). -/
  memWf : s.mem.wf
  /-- `CAUSE` names a cause of the class `RES`, and none with any other class (R26, R252). -/
  causeClass : s.status.cause.resClass =
    if s.status.res = .paramErr ∨ s.status.res = .frameErr then some s.status.res else none
  /-- `EXC_CODE` is 0 but after a result `EXCEPTION` (R27). -/
  excCode : s.status.res ≠ .exception → s.status.excCode = 0
  /-- Only a client decode ends with `EXCEPTION` (R25): `LAST_OP` is TCP_DECODE, RTU_DECODE or ASCII_DECODE. -/
  excOp : s.status.res = .exception → s.status.lastOp = 0x23 ∨ s.status.lastOp = 0x32 ∨ s.status.lastOp = 0x41
  /-- `ILLEGAL_CMD` is reported of an illegal opcode only (R95). -/
  illegalOp : s.status.res = .illegalCmd → illegalOpcode s.status.lastOp = true
  /-- With no request encoded since reset the context is at its reset value (R33). -/
  noRequest : s.req.mode = .none → s.req = ⟨.none, 0, 0, 0⟩
  /-- The context of a TCP request holds the transaction id most recently placed in a frame (R30, R34, R173). -/
  tcpTid : s.req.mode = .tcp → s.req.tid = s.tid
  /-- The context of an RTU or ASCII request holds transaction id 0 (R34). -/
  serialTid : s.req.mode = .rtu ∨ s.req.mode = .ascii → s.req.tid = 0
  /-- `PRED_LEN` is 0 or 4 to 256 (R38). -/
  predLen : s.predLen = 0 ∨ 4 ≤ s.predLen.toNat ∧ s.predLen.toNat ≤ 256
  /-- After a successful RTU_ENCODE `PRED_LEN` is 4 to 256 (R38). -/
  rtuPredLen : s.req.mode = .rtu → 4 ≤ s.predLen.toNat ∧ s.predLen.toNat ≤ 256
  /-- `TX_LEN` is 0 or the length of a frame of one of the formats, 4 to 513 (R43, R200, R230). -/
  txLen : s.txLen = 0 ∨ 4 ≤ s.txLen.toNat ∧ s.txLen.toNat ≤ 513
  /-- `RX_EXPECT` is 0, an RTU length (4 to 256) or a TCP length (7 to 260) (R37, R176, R208). -/
  rxExpect : s.rxExpect = 0 ∨ 4 ≤ s.rxExpect.toNat ∧ s.rxExpect.toNat ≤ 260
  /-- `DELAY_US` is below 2^33 (R205). -/
  delayUs : s.delayUs.toNat < 2 ^ 33
  /-- `H_LEN` is a length the header check passes, or its reset value (R41, R175). -/
  hdrLen : s.hdr.len.toNat ≤ 254

end Sys2Proof.Machine
end

