-- ==== Sys2Proof/Certificates/Slice0/Obligations.lean ====
section
/-! DEFINITION. The statements for the provers, family by family. Each docstring names the rule it formalises. -/

open Sys2Proof Sys2Proof.Machine

/-! ### Encoding -/

/-- Decode and encode agree on every well-formed command, every operand at every value (30_encoding.md R91, R93, R97). -/
def Obligations.DecodeEncodeRoundTrip : Prop :=
  ∀ i : Instr, i.wf = true → decode (encode i) = .ok i

/-- R95: the 242 listed `OP` values, and they alone, select no command; every other word decodes to a command of its `OP`. -/
def Obligations.IllegalOpcodesSelectNoCommand : Prop :=
  (∀ w : Word, illegalOpcode (opField w) = true → decode w = .error (.illegalOpcode (opField w))) ∧
  (∀ w : Word, illegalOpcode (opField w) = false → ∃ i, decode w = .ok i ∧ i.opcode = opField w) ∧
  ((List.range 256).filter fun n => illegalOpcode (BitVec.ofNat 8 n)).length = 242

/-- R94: operand fields a command does not use are ignored. Only the commands of the column "operands used" read `A8`, only TCP_REPLY
reads `A16`. -/
def Obligations.UnusedOperandFieldsAreIgnored : Prop :=
  ∀ w w' : Word, opField w = opField w' →
    (opField w ∈ [0x02, 0x11, 0x20, 0x21, 0x30, 0x40] → a8Field w = a8Field w') →
    (opField w = 0x21 → a16Field w = a16Field w') →
    decode w = decode w'

/-- R99: the example words of the spec. -/
def Obligations.CommandWordExamples : Prop :=
  decode 0x00000001 = .ok .crcInit ∧ decode 0x00000A02 = .ok (.crcByte 0x0A) ∧
  decode 0x0000FF11 = .ok (.lrcPush 0xFF) ∧ decode 0x00000120 = .ok (.tcpEncode 0x01) ∧
  decode 0x12341121 = .ok (.tcpReply 0x11 0x1234) ∧ decode 0x00000130 = .ok (.rtuEncode 0x01) ∧
  decode 0x00000041 = .ok .asciiDecode ∧ decode 0x00000000 = .error (.illegalOpcode 0x00)

/-! ### The step -/

/-- 30_encoding.md R90, R95: when the next access is a 32-bit write to `CMD` of a word that decodes to `i`, the step is `exec i`; of a word that
selects no command, the step writes STATUS; on the state in which the access has been taken from the list and answered. An 8-bit write to `CMD`
is a bus error. That the access stands in a list, that its answer is a field, and that `withFetchWord` places such an access are the model's own
(log 1, log 6, log 16). -/
def Obligations.StepRunsTheDecodedCommand : Prop :=
  (∀ (s : State) (w : Word) (rest : List Event) (i : Instr), s.pending = .write32 0x000 w :: rest → decode w = .ok i →
    step s = exec i { s with pending := rest, response := .written }) ∧
  (∀ (s : State) (w : Word) (rest : List Event) (op : Byte), s.pending = .write32 0x000 w :: rest →
    decode w = .error (.illegalOpcode op) →
    step s = .next { s with pending := rest, response := .written, status := ⟨.illegalCmd, .none, 0, op⟩ }) ∧
  (∀ (s : State) (w : Word) (i : Instr), decode w = .ok i →
    step (s.withFetchWord 32 w.toNat) = exec i { s with response := .written }) ∧
  (∀ (s : State) (b : Byte) (rest : List Event), s.pending = .write8 0x000 b :: rest →
    step s = .fault (.busError (.write8 0x000 b)))

/-- R95: a word whose `OP` is one of the 242 listed values selects no command: it sets `STATUS` to ILLEGAL_CMD with that `OP` and changes
nothing else. -/
def Obligations.IllegalCommandWritesOnlyStatus : Prop :=
  ∀ (s : State) (w : Word) (op : Nat), op = w.toNat % 256 →
    (op = 0x00 ∨ 0x03 ≤ op ∧ op ≤ 0x0F ∨ 0x12 ≤ op ∧ op ≤ 0x1F ∨ 0x25 ≤ op ∧ op ≤ 0x2F ∨ 0x33 ≤ op ∧ op ≤ 0x3F ∨
      0x42 ≤ op ∧ op ≤ 0xFF) →
    (∀ i, decode w ≠ .ok i) ∧
    runCommand w s = .next { s with status := ⟨.illegalCmd, .none, 0, BitVec.ofNat 8 op⟩ }

/-- 60_exceptions.md R267: with nothing to serve the block holds all its state (log 2). -/
def Obligations.IdleBlockHoldsItsState : Prop :=
  ∀ s : State, s.pending = [] → step s = .next s

/-- The commands are total: R110 "it always terminates", R250 "No command traps, halts the block". -/
def Obligations.EveryCommandEndsInANextState : Prop :=
  ∀ (i : Instr) (s : State), ∃ t, exec i s = .next t

/-- With no bus error among the inputs, no step stops, and the inputs left are still free of bus errors (R64, R250; D43). -/
def Obligations.LegalInputsNeverStopTheBlock : Prop :=
  ∀ s : State, s.LegalInputs → ∃ t, step s = .next t ∧ t.LegalInputs

/-! ### The bus -/

/-- R64: exactly these accesses are bus errors: a register-range access that is not 32-bit aligned, an access outside the register range and
the buffer windows, a 32-bit access at an offset that is no multiple of 4. -/
def Obligations.BusErrorsAreExactlyTheIllegalAccesses : Prop :=
  ∀ (s : State) (rest : List Event) (a : Addr) (v : Word) (b : Byte),
    (s.pending = .read8 a :: rest → (step s = .fault (.busError (.read8 a)) ↔ ¬ InBufferWindow a.toNat)) ∧
    (s.pending = .write8 a b :: rest → (step s = .fault (.busError (.write8 a b)) ↔ ¬ InBufferWindow a.toNat)) ∧
    (s.pending = .read32 a :: rest → (step s = .fault (.busError (.read32 a)) ↔
      ¬ (a.toNat % 4 = 0 ∧ (a.toNat ≤ 0x043 ∨ InBufferWindow a.toNat)))) ∧
    (s.pending = .write32 a v :: rest → (step s = .fault (.busError (.write32 a v)) ↔
      ¬ (a.toNat % 4 = 0 ∧ (a.toNat ≤ 0x043 ∨ InBufferWindow a.toNat))))

/-- 20_memory.md R67: a legal read changes nothing and is idempotent: the state is as before but for the model's own list of inputs and answer
(log 1, log 6), and the same read again answers the same. -/
def Obligations.ReadsHaveNoSideEffects : Prop :=
  ∀ (s : State) (rest : List Event) (e : Event), s.pending = e :: e :: rest → e.legal = true →
    (∃ a, e = .read8 a ∨ e = .read32 a) →
    ∃ v, step s = .next { s with pending := e :: rest, response := .data v } ∧
      step { s with pending := e :: rest, response := .data v } = .next { s with pending := rest, response := .data v }

/-- R22 to R41, R47: what a 32-bit read of each register returns, field by field; every other bit is 0. The numbers `code` stands for are in
NamedValueCodes. -/
def Obligations.RegisterReadValues : Prop :=
  ∀ s : State,
    (s.busRead32 0x000).toNat = 0 ∧
    (s.busRead32 0x004).toNat = s.status.lastOp.toNat * 2 ^ 24 + s.status.excCode.toNat * 2 ^ 16 +
      s.status.cause.code.toNat * 2 ^ 8 + s.status.res.code.toNat ∧
    (s.busRead32 0x008).toNat = s.crcAcc.toNat ∧
    (s.busRead32 0x00C).toNat = (0x100 - s.lrcSum.toNat) % 0x100 * 2 ^ 8 + s.lrcSum.toNat ∧
    (s.busRead32 0x010).toNat = s.tid.toNat ∧
    (s.busRead32 0x014).toNat = s.baud.toNat ∧
    (s.busRead32 0x018).toNat = s.pduLen.toNat ∧
    (s.busRead32 0x01C).toNat = s.txLen.toNat ∧
    (s.busRead32 0x020).toNat = s.rxLen.toNat ∧
    (s.busRead32 0x024).toNat = s.rxExpect.toNat ∧
    (s.busRead32 0x028).toNat = s.req.mode.code.toNat * 2 ^ 16 + s.req.fc.toNat * 2 ^ 8 + s.req.slave.toNat ∧
    (s.busRead32 0x02C).toNat = s.req.tid.toNat ∧
    (s.busRead32 0x030).toNat = s.predLen.toNat ∧
    (s.busRead32 0x038).toNat * 2 ^ 32 + (s.busRead32 0x034).toNat = s.delayUs.toNat ∧
    (s.busRead32 0x03C).toNat = s.hdr.pid.toNat * 2 ^ 16 + s.hdr.tid.toNat ∧
    (s.busRead32 0x040).toNat = s.hdr.unit.toNat * 2 ^ 16 + s.hdr.len.toNat

/-- R25, R33, R252: the number a read of STATUS and of REQ returns for each named value: the five `RES` codes, the `CAUSE` codes 0x00 to 0x04 and
0x10 to 0x1F, the four `REQ_MODE` codes. -/
def Obligations.NamedValueCodes : Prop :=
  ∀ s : State,
    (∀ p ∈ [(Res.ok, 0), (.exception, 1), (.paramErr, 2), (.frameErr, 3), (.illegalCmd, 4)],
      s.status.res = p.1 ↔ (s.busRead32 0x004).toNat % 2 ^ 4 = p.2) ∧
    (∀ p ∈ [(Cause.none, 0x00), (.pduSize, 0x01), (.noRequest, 0x02), (.predShort, 0x03), (.predRange, 0x04),
        (.short, 0x10), (.badLength, 0x11), (.lengthMismatch, 0x12), (.badSize, 0x13), (.checksum, 0x14), (.noStart, 0x15),
        (.noEnd, 0x16), (.oddLength, 0x17), (.badHex, 0x18), (.tidMismatch, 0x19), (.pidMismatch, 0x1A),
        (.slaveMismatch, 0x1B), (.funcMismatch, 0x1C), (.emptyData, 0x1D), (.noFunc, 0x1E), (.excLength, 0x1F)],
      s.status.cause = p.1 ↔ (s.busRead32 0x004).toNat / 2 ^ 8 % 2 ^ 8 = p.2) ∧
    (∀ p ∈ [(Format.none, 0), (.tcp, 1), (.rtu, 2), (.ascii, 3)],
      s.req.mode = p.1 ↔ (s.busRead32 0x028).toNat / 2 ^ 16 = p.2)

/-- A step serving a legal read answers the value of `busRead32` or `busRead8` (R64), and an 8-bit read is the buffer byte, 0 for a
reserved byte (R62, R47). The answer is a field of the model's own (log 6). -/
def Obligations.ReadStepAnswersTheValue : Prop :=
  (∀ (s : State) (rest : List Event) (a : Addr), s.pending = .read32 a :: rest → legal32 a = true →
    step s = .next { s with pending := rest, response := .data (s.busRead32 a) }) ∧
  (∀ (s : State) (rest : List Event) (a : Addr), s.pending = .read8 a :: rest → isBufferByte a.toNat = true →
    step s = .next { s with pending := rest, response := .data ((s.byteAt a.toNat).setWidth 32) }) ∧
  (∀ (s : State) (rest : List Event) (a : Addr), s.pending = .read8 a :: rest → InBufferWindow a.toNat →
    isBufferByte a.toNat = false → step s = .next { s with pending := rest, response := .data 0 })

/-- R31, R32, R36, R63: a 32-bit write to BAUD stores all 32 bits, to PDU_LEN the low 9, to RX_LEN the low 10; to any other register but
`CMD` it is ignored. The list of accesses and the answer are the model's own (log 1, log 6). -/
def Obligations.RegisterWrites : Prop :=
  ∀ (s : State) (rest : List Event) (a : Addr) (v : Word), s.pending = .write32 a v :: rest → a ≠ 0x000 →
    a.toNat ≤ 0x040 → a.toNat % 4 = 0 →
    step s = .next { s with
      pending := rest
      response := .written
      baud := if a = 0x014 then v else s.baud
      pduLen := if a = 0x018 then BitVec.ofNat 9 (v.toNat % 512) else s.pduLen
      rxLen := if a = 0x020 then BitVec.ofNat 10 (v.toNat % 1024) else s.rxLen }

/-- R42, R43, R44, R47, R62, R63: an 8-bit write in a buffer window stores the byte in the PDU and RX buffers and is ignored by the TX buffer
and the reserved bytes; every other byte, and every register, stays. The list of accesses and the answer are the model's own (log 1, log 6). -/
def Obligations.ByteWrites : Prop :=
  ∀ (s : State) (rest : List Event) (a : Addr) (b : Byte), s.pending = .write8 a b :: rest → InBufferWindow a.toNat →
    ∃ t, step s = .next t ∧ { t with mem := s.mem } = { s with pending := rest, response := .written } ∧
      ∀ x, t.byteAt x = if x = a.toNat ∧ (a.toNat ≤ 0x1FC ∨ 0x800 ≤ a.toNat ∧ a.toNat ≤ 0xA00) then b else s.byteAt x

/-- R65: a 32-bit access to a buffer window moves four bytes in little-endian order, each byte following the rule of its own offset. The list of
accesses and the answer are the model's own (log 1, log 6). -/
def Obligations.WordAccessesAreLittleEndian : Prop :=
  ∀ (s : State) (rest : List Event) (a : Addr) (v : Word), InBufferWindow a.toNat → a.toNat % 4 = 0 →
    ((s.busRead32 a).toNat = (s.busRead8 a).toNat + (s.busRead8 (a + 1)).toNat * 2 ^ 8 +
      (s.busRead8 (a + 2)).toNat * 2 ^ 16 + (s.busRead8 (a + 3)).toNat * 2 ^ 24) ∧
    (s.pending = .write32 a v :: rest →
      ∃ t, step s = .next t ∧ { t with mem := s.mem } = { s with pending := rest, response := .written } ∧
        ∀ x, t.byteAt x =
          if a.toNat ≤ x ∧ x < a.toNat + 4 ∧ (x ≤ 0x1FC ∨ 0x800 ≤ x ∧ x ≤ 0xA00) then
            BitVec.ofNat 8 (v.toNat / 2 ^ (8 * (x - a.toNat)))
          else s.byteAt x)

/-- 30_encoding.md R98: the host's programs SETPDU and SETRX leave exactly the given bytes as the PDU and as the received frame, and change
nothing else but the buffer's bytes and the model's own list of accesses and answer (log 1, log 6). -/
def Obligations.HostProgramsPlaceTheOperands : Prop :=
  (∀ (s : State) (bs : List Byte) (rest : List Event), bs.length ≤ 253 → s.pending = Prog.setPdu bs ++ rest →
    ∃ t, core.run (bs.length + 1) s = .next t ∧
      { t with mem := s.mem } = { s with pending := rest, response := .written, pduLen := BitVec.ofNat 9 bs.length } ∧
      t.pdu = bs ∧ SameOutside 0x100 bs.length s t) ∧
  (∀ (s : State) (bs : List Byte) (rest : List Event), bs.length ≤ 513 → s.pending = Prog.setRx bs ++ rest →
    ∃ t, core.run (bs.length + 1) s = .next t ∧
      { t with mem := s.mem } = { s with pending := rest, response := .written, rxLen := BitVec.ofNat 10 bs.length } ∧
      t.Received bs ∧ SameOutside 0x800 bs.length s t)

/-! ### Reset -/

/-- R280: the reset values, of the state after power-up reset and of the state a served reset leaves: each field, what a read of each register
returns (`CMD` and the reserved bits 0), the buffers drawn from BUF_INIT, the reserved bytes 0, the table `T` constant. -/
def Obligations.ResetValues : Prop :=
  ∀ (s t : State) (rest : List Event), (t = State.reset ∨ s.pending = .reset :: rest ∧ step s = .next t) →
    (t.status.word = 0 ∧ t.crcAcc = 0xFFFF ∧ t.lrcSum = 0 ∧ lrcValue t.lrcSum = 0 ∧ t.tid = 0 ∧ t.baud = 0 ∧ t.pduLen = 0 ∧
      t.req.mode = .none ∧ t.req.slave = 0 ∧ t.req.fc = 0 ∧ t.req.tid = 0 ∧ t.txLen = 0 ∧ t.rxLen = 0 ∧ t.rxExpect = 0 ∧
      t.predLen = 0 ∧ t.delayUs = 0 ∧ t.hdr = ⟨0, 0, 0, 0⟩) ∧
    (∀ a : Addr, a.toNat ≤ 0x040 → a.toNat % 4 = 0 → t.busRead32 a = if a = 0x008 then 0xFFFF else 0) ∧
    (∃ draw, ∀ x, t.byteAt x = Config.bufInit draw x) ∧
    (∀ a : Addr, InBufferWindow a.toNat → isBufferByte a.toNat = false → t.busRead8 a = 0) ∧
    ∀ i : Byte, crcLookup i = crcEntry i

/-- R46: a served reset leaves no written byte behind: every buffer byte is a draw of BUF_INIT. That the draw is a fresh one, counted by
`resets`, is the model's choice (log 3, log 5), as is the list of accesses (log 1, log 14); the statement holds for every value of the counter. -/
def Obligations.ResetRedrawsTheBuffers : Prop :=
  ∀ (s : State) (rest : List Event), s.pending = .reset :: rest →
    ∃ t, step s = .next t ∧ t.resets = s.resets + 1 ∧ t.pending = rest ∧ ∀ x, t.byteAt x = Config.bufInit t.resets x

/-- R281: the block after reset equals the source's freshly constructed objects: with the request context as reset leaves it every decode
fails with NO_REQUEST, and the context stays so under every command but a successful encode. -/
def Obligations.FreshBlockAfterReset : Prop :=
  State.reset.crcAcc = crc16 [] ∧ crc16 [] = 0xFFFF ∧ lrcValue State.reset.lrcSum = 0 ∧
  ∀ s : State, s.req = State.reset.req →
    (FailsWith .tcpDecode s .paramErr .noRequest ∧ FailsWith .rtuRxlen s .paramErr .noRequest ∧
      FailsWith .rtuDecode s .paramErr .noRequest ∧ FailsWith .asciiDecode s .paramErr .noRequest) ∧
    ∀ (i : Instr) (t : State), exec i s = .next t → ¬ (t.status.res = .ok ∧ i.opcode ∈ [0x20, 0x30, 0x40]) →
      t.req = State.reset.req

/-! ### What every command does to STATUS, and what it leaves -/

/-- R111: every command writes all of STATUS. LAST_OP is its OP; CAUSE is a cause of the class RES exactly when RES is PARAM_ERR or FRAME_ERR,
and 0 otherwise; EXC_CODE is 0 unless RES is EXCEPTION, and then it is the code in the decoded PDU. A command that raises changes no state
other than STATUS. -/
def Obligations.EveryCommandWritesStatus : Prop :=
  ∀ (i : Instr) (s t : State), exec i s = .next t →
    t.status.lastOp = i.opcode ∧ t.status.res ≠ .illegalCmd ∧
    (t.status.res = .paramErr ∨ t.status.res = .frameErr →
      t.status.cause.resClass = some t.status.res ∧ t.status.excCode = 0 ∧ t = { s with status := t.status }) ∧
    (t.status.res = .ok → t.status.cause = .none ∧ t.status.excCode = 0) ∧
    (t.status.res = .exception → t.status.cause = .none ∧ t.pduLen = 2 ∧ t.status.excCode = t.byteAt 0x101)

/-- R48, R259: nothing but the host reads STATUS: no command's result depends on what an earlier one left there. -/
def Obligations.NoCommandReadsStatus : Prop :=
  ∀ (i : Instr) (s : State) (st : Status), exec i { s with status := st } = exec i s

/-- R136, R155: the frame commands neither read nor write CRC_ACC and LRC_SUM: from two states that differ there only, they reach two states
that differ there only, in the same way. -/
def Obligations.FrameCommandsIgnoreTheAccumulators : Prop :=
  ∀ (i : Instr) (s t : State) (c : Half) (l : Byte), isFrameCommand i → exec i s = .next t →
    t.crcAcc = s.crcAcc ∧ t.lrcSum = s.lrcSum ∧
    exec i { s with crcAcc := c, lrcSum := l } = .next { t with crcAcc := c, lrcSum := l }

/-- R50: what a frame command reads of the state is TID, the request context, PRED_LEN, BAUD, PDU_LEN, RX_LEN and the PDU and RX buffers: from
two states that agree there it reports the same STATUS, the two still agree there, and on success every result it writes is the same: the
frame to send and its length, the header registers, RX_EXPECT, DELAY_US. -/
def Obligations.FrameCommandsReadOnlyTheirInputs : Prop :=
  ∀ (i : Instr) (s t s' t' : State), isFrameCommand i → FrameInputsAgree s t → exec i s = .next s' → exec i t = .next t' →
    s'.status = t'.status ∧ FrameInputsAgree s' t' ∧
    (s'.status.res = .ok →
      (i.opcode ∈ [0x20, 0x21, 0x30, 0x40] → s'.txLen = t'.txLen ∧ s'.txFrame = t'.txFrame) ∧
      (i.opcode ∈ [0x22, 0x24] → s'.hdr = t'.hdr) ∧
      (i.opcode ∈ [0x22, 0x31] → s'.rxExpect = t'.rxExpect) ∧
      (i.opcode = 0x30 → s'.delayUs = t'.delayUs))

/-- R33, R34, R287: the request context is written by a successful TCP_ENCODE, RTU_ENCODE or ASCII_ENCODE and by nothing else; no command
writes BAUD or RX_LEN (R31, R36), and none writes a byte of the receive buffer (R44). -/
def Obligations.CommandsLeaveTheHostsOperands : Prop :=
  ∀ (i : Instr) (s t : State), exec i s = .next t →
    (t.req = s.req ∨ t.status.res = .ok ∧ i.opcode ∈ [0x20, 0x30, 0x40]) ∧
    t.baud = s.baud ∧ t.rxLen = s.rxLen ∧ (∀ x < 513, t.rx x = s.rx x) ∧
    t.pending = s.pending ∧ t.response = s.response ∧ t.resets = s.resets

/-! ### CRC -/

/-- R132: CRC_INIT. -/
def Obligations.CrcInitResult : Prop :=
  ∀ s : State, exec .crcInit s = .next { s with crcAcc := 0xFFFF, status := ⟨.ok, .none, 0, 0x01⟩ }

/-- R133: CRC_BYTE, with `T` the table the loop of R131 builds. -/
def Obligations.CrcByteResult : Prop :=
  ∀ (s : State) (b : Byte), exec (.crcByte b) s = .next { s with
    crcAcc := (s.crcAcc >>> 8) ^^^ crcEntry ((s.crcAcc ^^^ b.setWidth 16).setWidth 8)
    status := ⟨.ok, .none, 0, 0x02⟩ }

/-- R131, R137: the printed table holds 256 entries, the ones the loop computes, and with it `crc16` gives the source's two vectors. -/
def Obligations.CrcTableIsTheConstruction : Prop :=
  crcTable.length = 256 ∧ (∀ i : Byte, crcTable[i.toNat]? = some (crcEntry i)) ∧
  crc16 [0x01, 0x03, 0x00, 0x00, 0x00, 0x0A] = 0xCDC5 ∧ crc16 [0x01, 0x01, 0x00, 0x13, 0x00, 0x13] = 0x028C

/-- R130, R131: the table-driven fold of a byte equals eight shifts of the accumulator with the byte exclusive-ored into its low bits, the
CRC's bit-serial form. -/
def Obligations.TableDrivenFoldIsBitSerial : Prop :=
  ∀ (acc : Half) (b : Byte), crcFold acc b =
    crcShift (crcShift (crcShift (crcShift (crcShift (crcShift (crcShift (crcShift (acc ^^^ b.setWidth 16))))))))

/-- R134: after any commands among which the CRC commands are CRC_INIT and then CRC_BYTE over the bytes of `p` and of `q`, `CRC_ACC` is
`crc16(p ++ q)`; no command but CRC_INIT and CRC_BYTE changes it. -/
def Obligations.CrcCommandsComputeCrc16 : Prop :=
  (∀ (s : State) (cs : List Instr) (p q : List Byte) (rest : List Event), s.pending = cs.map Prog.command ++ rest →
    cs.filter isCrcCommand = .crcInit :: (p ++ q).map .crcByte →
    ∃ t, core.run cs.length s = .next t ∧ t.crcAcc = crc16 (p ++ q)) ∧
  (∀ (i : Instr) (s t : State), isCrcCommand i = false → exec i s = .next t → t.crcAcc = s.crcAcc)

/-- R201: a byte sequence with its CRC appended, low byte first, has CRC 0, and conversely the comparison RTU_DECODE makes accepts exactly
the frames whose CRC is 0. -/
def Obligations.CrcResidueIsZero : Prop :=
  (∀ p : List Byte, crc16 (p ++ le16 (crc16 p)) = 0) ∧
  ∀ (p : List Byte) (lo hi : Byte), crc16 (p ++ [lo, hi]) = 0 ↔ crc16 p = le16Of lo hi

/-! ### LRC -/

/-- R152: LRC_RESET. -/
def Obligations.LrcResetResult : Prop :=
  ∀ s : State, exec .lrcReset s = .next { s with lrcSum := 0, status := ⟨.ok, .none, 0, 0x10⟩ }

/-- R153: LRC_PUSH. -/
def Obligations.LrcPushResult : Prop :=
  ∀ (s : State) (b : Byte), exec (.lrcPush b) s = .next { s with
    lrcSum := BitVec.ofNat 8 ((s.lrcSum.toNat + b.toNat) % 256), status := ⟨.ok, .none, 0, 0x11⟩ }

/-- R151: the sum of a frame's bytes with its LRC appended is 0 mod 256, and no other byte appended makes it so. -/
def Obligations.LrcSumWithLrcIsZero : Prop :=
  ∀ (p : List Byte) (c : Byte), ((p ++ [c]).map BitVec.toNat).sum % 256 = 0 ↔ c = lrc p

/-- R154: after any commands among which the LRC commands are LRC_RESET and then LRC_PUSH over the bytes of `q`, LRC_VALUE reads `lrc(p)` for
every permutation `p` of `q`. -/
def Obligations.LrcCommandsComputeLrc : Prop :=
  ∀ (s : State) (cs : List Instr) (p q : List Byte) (rest : List Event), s.pending = cs.map Prog.command ++ rest →
    cs.filter isLrcCommand = .lrcReset :: q.map .lrcPush → q.Perm p →
    ∃ t, core.run cs.length s = .next t ∧ lrcValue t.lrcSum = lrc p

/-! ### Encoders -/

/-- R114: every encoder first checks the PDU size; `PDU[0 .. PDU_LEN)` is its PDU when the size is 1 to 253. -/
def Obligations.EncodersCheckThePduSize : Prop :=
  ∀ (s : State) (i : Instr), i.opcode ∈ [0x20, 0x21, 0x30, 0x40] →
    (¬ (1 ≤ s.pduLen.toNat ∧ s.pduLen.toNat ≤ 253) → FailsWith i s .paramErr .pduSize) ∧
    (1 ≤ s.pduLen.toNat → s.pduLen.toNat ≤ 253 →
      checkPdu s = .ok (s.bytes 0x100 s.pduLen.toNat) ∧ ∀ t, exec i s = .next t → t.status.cause ≠ .pduSize)

/-- R172: TCP_ENCODE, for every PDU size. On success everything but TX_LEN, TID, the request context, STATUS and `TX[0 .. 7+n)` is
unchanged. -/
def Obligations.TcpEncodeResult : Prop :=
  ∀ (s : State) (slave : Byte) (n : Nat), s.pduLen.toNat = n →
    (¬ (1 ≤ n ∧ n ≤ 253) → FailsWith (.tcpEncode slave) s .paramErr .pduSize) ∧
    (1 ≤ n → n ≤ 253 →
      ∃ t, exec (.tcpEncode slave) s = .next t ∧
        { t with mem := s.mem } = { s with
          txLen := BitVec.ofNat 10 (7 + n)
          tid := s.tid + 1
          req := ⟨.tcp, slave, s.byteAt 0x100, s.tid + 1⟩
          status := ⟨.ok, .none, 0, 0x20⟩ } ∧
        t.bytes 0x400 (7 + n) =
          be16 (s.tid + 1) ++ [0x00, 0x00] ++ be16 (BitVec.ofNat 16 (1 + n)) ++ [slave] ++ s.bytes 0x100 n ∧
        SameOutside 0x400 (7 + n) s t)

/-- R173: only a successful TCP_ENCODE changes TID; it adds 1 mod 65536 and places the value in the frame. From TID 0, as reset leaves it,
`n` TCP_ENCODEs in a row of a PDU of legal size end with the id `n` mod 65536 in the frame. R283: reset alone returns TID to 0. -/
def Obligations.TransactionCounterLaw : Prop :=
  (∀ (i : Instr) (s t : State), exec i s = .next t →
    t.tid = s.tid ∧ ¬ (∃ a8, i = .tcpEncode a8 ∧ t.status.res = .ok) ∨
    (∃ a8, i = .tcpEncode a8) ∧ t.status.res = .ok ∧ t.tid.toNat = (s.tid.toNat + 1) % 65536 ∧
      (t.byteAt 0x400).toNat * 256 + (t.byteAt 0x401).toNat = t.tid.toNat) ∧
  (∀ (s : State) (slaves : List Byte) (rest : List Event), s.tid = 0 → 1 ≤ s.pduLen.toNat → s.pduLen.toNat ≤ 253 → slaves ≠ [] →
    s.pending = slaves.map (fun a8 => Prog.command (.tcpEncode a8)) ++ rest →
    ∃ t, core.run slaves.length s = .next t ∧ t.tid.toNat = slaves.length % 65536 ∧
      (t.byteAt 0x400).toNat * 256 + (t.byteAt 0x401).toNat = slaves.length % 65536) ∧
  (∀ s t : State, step s = .next t → t.tid = s.tid ∨ t.tid.toNat = (s.tid.toNat + 1) % 65536 ∨
    s.pending.head? = some .reset ∧ t.tid = 0)

/-- R174: TCP_REPLY, for every PDU size. It writes neither TID nor the request context. -/
def Obligations.TcpReplyResult : Prop :=
  ∀ (s : State) (unit : Byte) (tid : Half) (n : Nat), s.pduLen.toNat = n →
    (¬ (1 ≤ n ∧ n ≤ 253) → FailsWith (.tcpReply unit tid) s .paramErr .pduSize) ∧
    (1 ≤ n → n ≤ 253 →
      ∃ t, exec (.tcpReply unit tid) s = .next t ∧
        { t with mem := s.mem } = { s with txLen := BitVec.ofNat 10 (7 + n), status := ⟨.ok, .none, 0, 0x21⟩ } ∧
        t.bytes 0x400 (7 + n) =
          be16 tid ++ [0x00, 0x00] ++ be16 (BitVec.ofNat 16 (1 + n)) ++ [unit] ++ s.bytes 0x100 n ∧
        SameOutside 0x400 (7 + n) s t)

/-- R203: the predicted response length, category by category; PRED_SHORT before PRED_RANGE. -/
def Obligations.RtuPredictionFormula : Prop :=
  ∀ pdu : List Byte, pdu ≠ [] →
    let fc := pdu.headD 0
    let q := (pdu.getD 3 0).toNat * 256 + (pdu.getD 4 0).toNat
    (fc ∈ [0x01, 0x02, 0x03, 0x04, 0x17] → pdu.length < 5 → rtuPredict pdu = .error (.param .predShort)) ∧
    (fc ∈ [0x01, 0x02] → 5 ≤ pdu.length → rtuPredict pdu =
      if 4 + (1 + (q + 7) / 8) ≤ 256 then .ok (4 + (1 + (q + 7) / 8)) else .error (.param .predRange)) ∧
    (fc ∈ [0x03, 0x04, 0x17] → 5 ≤ pdu.length → rtuPredict pdu =
      if 4 + (1 + 2 * q) ≤ 256 then .ok (4 + (1 + 2 * q)) else .error (.param .predRange)) ∧
    (fc ∈ [0x05, 0x06, 0x0F, 0x10] → rtuPredict pdu = .ok 8) ∧
    (fc = 0x16 → rtuPredict pdu = .ok 10) ∧
    (fc ∉ [0x01, 0x02, 0x03, 0x04, 0x17, 0x05, 0x06, 0x0F, 0x10, 0x16] → rtuPredict pdu = .ok 4)

/-- R204: the prediction of a quantity-bearing request succeeds exactly up to quantity 2008 (bits) and 125 (registers); up to 2000 bits and
125 registers it is at most 255; every prediction that succeeds is 4 to 256 (R38). -/
def Obligations.RtuPredictionLimits : Prop :=
  (∀ (pdu : List Byte) (q : Nat), 5 ≤ pdu.length → q = (pdu.getD 3 0).toNat * 256 + (pdu.getD 4 0).toNat →
    (pdu.headD 0 ∈ [0x01, 0x02] →
      ((∃ p, rtuPredict pdu = .ok p) ↔ q ≤ 2008) ∧ (q ≤ 2000 → ∃ p, rtuPredict pdu = .ok p ∧ p ≤ 255)) ∧
    (pdu.headD 0 ∈ [0x03, 0x04, 0x17] →
      ((∃ p, rtuPredict pdu = .ok p) ↔ q ≤ 125) ∧ (q ≤ 125 → ∃ p, rtuPredict pdu = .ok p ∧ p ≤ 255))) ∧
  (∀ (pdu : List Byte) (p : Nat), rtuPredict pdu = .ok p → 4 ≤ p ∧ p ≤ 256)

/-- R205: the delay in microseconds, its bound for any two RTU frames, and the arguments RTU_ENCODE computes it with. -/
def Obligations.RtuDelayFormula : Prop :=
  (∀ baud n : Nat,
    (1 ≤ baud → baud ≤ 19200 → rtuDelay baud n = 15000000 / baud * n + 35000000 / baud) ∧
    (baud = 0 ∨ 19200 < baud → rtuDelay baud n = 750 * n + 1750) ∧
    (n ≤ 512 → rtuDelay baud n < 2 ^ 33)) ∧
  (∀ (s t : State) (slave : Byte), exec (.rtuEncode slave) s = .next t → t.status.res = .ok →
    t.delayUs.toNat = rtuDelay s.baud.toNat (t.txLen.toNat + t.predLen.toNat))

/-- R202: RTU_ENCODE: check 1, the prediction's checks 2 and 3 with their causes, and, for every PDU of legal size whose response length can
be predicted, the frame, the prediction, the delay and the context. -/
def Obligations.RtuEncodeResult : Prop :=
  ∀ (s : State) (slave : Byte) (n : Nat), s.pduLen.toNat = n →
    (¬ (1 ≤ n ∧ n ≤ 253) → FailsWith (.rtuEncode slave) s .paramErr .pduSize) ∧
    (1 ≤ n → n ≤ 253 →
      (∀ c, rtuPredict (s.bytes 0x100 n) = .error (.param c) → FailsWith (.rtuEncode slave) s .paramErr c) ∧
      (∀ p, rtuPredict (s.bytes 0x100 n) = .ok p →
        ∃ t, exec (.rtuEncode slave) s = .next t ∧
          { t with mem := s.mem } = { s with
            txLen := BitVec.ofNat 10 (n + 3)
            predLen := BitVec.ofNat 10 p
            delayUs := BitVec.ofNat 64 (rtuDelay s.baud.toNat ((n + 3) + p))
            req := ⟨.rtu, slave, s.byteAt 0x100, 0⟩
            status := ⟨.ok, .none, 0, 0x30⟩ } ∧
          t.bytes 0x400 (n + 3) = slave :: s.bytes 0x100 n ++ le16 (crc16 (slave :: s.bytes 0x100 n)) ∧
          SameOutside 0x400 (n + 3) s t))

/-- R233, R230: ASCII_ENCODE, for every PDU size; the frame has `2n + 7` characters. -/
def Obligations.AsciiEncodeResult : Prop :=
  ∀ (s : State) (slave : Byte) (n : Nat), s.pduLen.toNat = n →
    (¬ (1 ≤ n ∧ n ≤ 253) → FailsWith (.asciiEncode slave) s .paramErr .pduSize) ∧
    (1 ≤ n → n ≤ 253 →
      ∃ t, exec (.asciiEncode slave) s = .next t ∧
        { t with mem := s.mem } = { s with
          txLen := BitVec.ofNat 10 (2 * n + 7)
          req := ⟨.ascii, slave, s.byteAt 0x100, 0⟩
          status := ⟨.ok, .none, 0, 0x40⟩ } ∧
        t.bytes 0x400 (2 * n + 7) =
          [0x3A] ++ hex (slave :: s.bytes 0x100 n ++ [lrc (slave :: s.bytes 0x100 n)]) ++ [0x0D, 0x0A] ∧
        SameOutside 0x400 (2 * n + 7) s t)

/-- R231, R232: the two characters of each byte, and the value of each character, in either letter case; every other character is invalid. -/
def Obligations.HexCharacters : Prop :=
  (∀ (p : List Byte) (i : Nat), i < p.length →
    let digit := fun v : Nat => if v < 10 then 0x30 + v else 0x41 + (v - 10)
    ((hex p).getD (2 * i) 0).toNat = digit ((p.getD i 0).toNat / 16) ∧
    ((hex p).getD (2 * i + 1) 0).toNat = digit ((p.getD i 0).toNat % 16)) ∧
  (∀ (ch : Byte) (v : BitVec 4), nib ch = some v ↔
    0x30 ≤ ch.toNat ∧ ch.toNat ≤ 0x39 ∧ v.toNat = ch.toNat - 0x30 ∨
    0x41 ≤ ch.toNat ∧ ch.toNat ≤ 0x46 ∧ v.toNat = ch.toNat - 0x41 + 10 ∨
    0x61 ≤ ch.toNat ∧ ch.toNat ≤ 0x66 ∧ v.toNat = ch.toNat - 0x61 + 10)

/-- R231, R232: hexadecimal text decodes back, in either letter case, and has two characters a byte. -/
def Obligations.HexTextRoundTrip : Prop :=
  ∀ p : List Byte, (hex p).length = 2 * p.length ∧ unhex (hex p) = some p ∧ unhex (lowerHex (hex p)) = some p

/-! ### The MBAP header parser and the server side -/

/-- R176: MBAP_PARSE on every receive count the buffer can hold: its two errors, and its effect on every legal length field. Counts above 513,
where R36 is read by inference (log 8), are in ReceiveCommandsAboveTheBuffer. -/
def Obligations.MbapParseResult : Prop :=
  ∀ s : State,
    (s.rxLen.toNat < 7 → FailsWith .mbapParse s .frameErr .short) ∧
    (7 ≤ s.rxLen.toNat → s.rxLen.toNat ≤ 513 → MbapParseOutcome s)

/-- R180: TCP_SPLIT: its errors, first failing check first (R112), and its effect on every complete frame with a function code; neither
protocol id nor unit id is checked. -/
def Obligations.TcpSplitResult : Prop :=
  ∀ (s : State) (l : Nat), s.mbapLen = l →
    (s.rxLen.toNat < 7 → FailsWith .tcpSplit s .frameErr .short) ∧
    (7 ≤ s.rxLen.toNat →
      (l = 0 ∨ 254 < l → FailsWith .tcpSplit s .frameErr .badLength) ∧
      (1 ≤ l → l ≤ 254 →
        (s.rxLen.toNat ≠ 6 + l → FailsWith .tcpSplit s .frameErr .lengthMismatch) ∧
        (s.rxLen.toNat = 6 + l → l = 1 → FailsWith .tcpSplit s .frameErr .noFunc) ∧
        (s.rxLen.toNat = 6 + l → 2 ≤ l →
          ∃ t, exec .tcpSplit s = .next t ∧
            { t with mem := s.mem } = { s with
              hdr := ⟨BitVec.ofNat 16 s.mbapTid, BitVec.ofNat 16 s.mbapPid, BitVec.ofNat 16 l, s.rx 6⟩
              pduLen := BitVec.ofNat 9 (l - 1)
              status := ⟨.ok, .none, 0, 0x24⟩ } ∧
            t.bytes 0x100 (l - 1) = s.bytes 0x807 (l - 1) ∧ SameOutside 0x100 (l - 1) s t)))

/-! ### Client decoders -/

/-- R178: TCP_DECODE: checks 1 to 8 in their order (R112, R255), and on a response that passes them the outcome of check 9 and of
`finish_decode` (R115, R118). -/
def Obligations.TcpDecodeResult : Prop :=
  ∀ (s : State) (l : Nat), s.mbapLen = l →
    (s.req.mode ≠ .tcp → FailsWith .tcpDecode s .paramErr .noRequest) ∧
    (s.req.mode = .tcp →
      (s.rxLen.toNat < 7 → FailsWith .tcpDecode s .frameErr .short) ∧
      (7 ≤ s.rxLen.toNat →
        (l = 0 ∨ 254 < l → FailsWith .tcpDecode s .frameErr .badLength) ∧
        (1 ≤ l → l ≤ 254 →
          (s.rxLen.toNat ≠ 6 + l → FailsWith .tcpDecode s .frameErr .lengthMismatch) ∧
          (s.rxLen.toNat = 6 + l →
            (s.mbapTid ≠ s.req.tid.toNat → FailsWith .tcpDecode s .frameErr .tidMismatch) ∧
            (s.mbapTid = s.req.tid.toNat →
              (s.mbapPid ≠ 0 → FailsWith .tcpDecode s .frameErr .pidMismatch) ∧
              (s.mbapPid = 0 →
                (s.rx 6 ≠ s.req.slave → FailsWith .tcpDecode s .frameErr .slaveMismatch) ∧
                (s.rx 6 = s.req.slave →
                  (l = 1 → FailsWith .tcpDecode s .frameErr .noFunc) ∧
                  (2 ≤ l → ReplyOutcome .tcpDecode s (s.bytes 0x807 (l - 1))))))))))

/-- R208: RTU_RXLEN on every receive count the buffer can hold: its two results and its three errors. Counts above 513, where R36 is read
by inference (log 8), are in ReceiveCommandsAboveTheBuffer. -/
def Obligations.RtuRxlenResult : Prop :=
  ∀ s : State,
    (s.req.mode ≠ .rtu → FailsWith .rtuRxlen s .paramErr .noRequest) ∧
    (s.req.mode = .rtu →
      (s.rxLen.toNat < 4 → FailsWith .rtuRxlen s .frameErr .short) ∧
      (4 ≤ s.rxLen.toNat → s.rxLen.toNat ≤ 513 → RtuRxlenOutcome s))

/-- 10_state.md R36, 92_eei_decisions.md D41: a receive count above 513 fails the bound check of every command whose rule states an upper bound,
so that TCP_DECODE, TCP_SPLIT, RTU_DECODE and ASCII_DECODE end in an error that changes STATUS alone. MBAP_PARSE and RTU_RXLEN, whose checks have
a lower bound only, do what R176 and R208 say; that R36 asks no failure of them there is the model's reading (log 8, DEDUCED). -/
def Obligations.ReceiveCommandsAboveTheBuffer : Prop :=
  ∀ s : State, 513 < s.rxLen.toNat →
    (∀ i ∈ [Instr.tcpDecode, .tcpSplit, .rtuDecode, .asciiDecode],
      FailsWith i s .paramErr .noRequest ∨ ∃ c ∈ [Cause.badLength, .lengthMismatch, .badSize], FailsWith i s .frameErr c) ∧
    MbapParseOutcome s ∧ (s.req.mode = .rtu → RtuRxlenOutcome s)

/-- R210: RTU_DECODE: checks 1 to 4 in their order (R112, R255), and on a response that passes them the outcome of check 5 and of
`finish_decode` (R115, R118). -/
def Obligations.RtuDecodeResult : Prop :=
  ∀ (s : State) (m : Nat), s.rxLen.toNat = m →
    (s.req.mode ≠ .rtu → FailsWith .rtuDecode s .paramErr .noRequest) ∧
    (s.req.mode = .rtu →
      (m < 4 ∨ 256 < m → FailsWith .rtuDecode s .frameErr .badSize) ∧
      (4 ≤ m → m ≤ 256 →
        ((crc16 (s.bytes 0x800 (m - 2))).toNat ≠ (s.rx (m - 2)).toNat + (s.rx (m - 1)).toNat * 256 →
          FailsWith .rtuDecode s .frameErr .checksum) ∧
        ((crc16 (s.bytes 0x800 (m - 2))).toNat = (s.rx (m - 2)).toNat + (s.rx (m - 1)).toNat * 256 →
          (s.rx 0 ≠ s.req.slave → FailsWith .rtuDecode s .frameErr .slaveMismatch) ∧
          (s.rx 0 = s.req.slave → ReplyOutcome .rtuDecode s (s.bytes 0x801 (m - 3))))))

/-- R235: ASCII_DECODE: checks 1 to 8 in their order (R112, R255), and on a response that passes them the outcome of check 9 and of
`finish_decode` (R115, R118). The hex text `RX[1 .. m-2)` stands for the bytes `slave`, `rsp` and the received LRC `chk`. -/
def Obligations.AsciiDecodeResult : Prop :=
  ∀ (s : State) (m : Nat), s.rxLen.toNat = m →
    (s.req.mode ≠ .ascii → FailsWith .asciiDecode s .paramErr .noRequest) ∧
    (s.req.mode = .ascii →
      (m < 9 ∨ 513 < m → FailsWith .asciiDecode s .frameErr .badSize) ∧
      (9 ≤ m → m ≤ 513 →
        (s.rx 0 ≠ 0x3A → FailsWith .asciiDecode s .frameErr .noStart) ∧
        (s.rx 0 = 0x3A →
          (¬ (s.rx (m - 2) = 0x0D ∧ s.rx (m - 1) = 0x0A) → FailsWith .asciiDecode s .frameErr .noEnd) ∧
          (s.rx (m - 2) = 0x0D → s.rx (m - 1) = 0x0A →
            ((m - 1) % 2 ≠ 0 → FailsWith .asciiDecode s .frameErr .oddLength) ∧
            ((m - 1) % 2 = 0 →
              ((∃ k, 1 ≤ k ∧ k ≤ m - 3 ∧ nib (s.rx k) = none) → FailsWith .asciiDecode s .frameErr .badHex) ∧
              ((∀ k, 1 ≤ k → k ≤ m - 3 → nib (s.rx k) ≠ none) →
                ∃ (slave chk : Byte) (rsp : List Byte), HexTextIs (s.bytes 0x801 (m - 3)) (slave :: rsp ++ [chk]) ∧
                  rsp.length = (m - 3) / 2 - 2 ∧
                  (lrc (slave :: rsp) ≠ chk → FailsWith .asciiDecode s .frameErr .checksum) ∧
                  (lrc (slave :: rsp) = chk →
                    (slave ≠ s.req.slave → FailsWith .asciiDecode s .frameErr .slaveMismatch) ∧
                    (slave = s.req.slave → ReplyOutcome .asciiDecode s rsp))))))))

/-! ### Round trips over the whole block -/

/-- R179: after a successful TCP_ENCODE of the PDU `p`, a reply with its transaction id, protocol id 0, its unit id, its function code and
data `d` decodes to that function code and data; the request frame itself, echoed, decodes to `p`. -/
def Obligations.TcpRoundTrip : Prop :=
  ∀ (s t u : State) (slave : Byte) (p : List Byte), s.pdu = p → exec (.tcpEncode slave) s = .next t → t.status.res = .ok →
    SameTransaction t u →
    (∀ d : List Byte, d ≠ [] → d.length ≤ 252 →
      u.Received (be16 t.tid ++ [0, 0] ++ be16 (BitVec.ofNat 16 (2 + d.length)) ++ [slave] ++ (p.headD 0 :: d)) →
      ∃ v, exec .tcpDecode u = .next v ∧ v.status.res = .ok ∧ v.pdu = p.headD 0 :: d) ∧
    (2 ≤ p.length → u.Received t.txFrame → ∃ v, exec .tcpDecode u = .next v ∧ v.status.res = .ok ∧ v.pdu = p)

/-- R211: the RTU round trip, with a normal reply and with an exception reply. -/
def Obligations.RtuRoundTrip : Prop :=
  ∀ (s t u : State) (slave : Byte) (p : List Byte), s.pdu = p → exec (.rtuEncode slave) s = .next t → t.status.res = .ok →
    SameTransaction t u →
    (∀ d : List Byte, d ≠ [] → d.length ≤ 252 →
      u.Received (slave :: p.headD 0 :: d ++ le16 (crc16 (slave :: p.headD 0 :: d))) →
      ∃ v, exec .rtuDecode u = .next v ∧ v.status.res = .ok ∧ v.pdu = p.headD 0 :: d) ∧
    (∀ e : Byte, (p.headD 0).toNat < 0x80 →
      u.Received ([slave, p.headD 0 ||| 0x80, e] ++ le16 (crc16 [slave, p.headD 0 ||| 0x80, e])) →
      ∃ v, exec .rtuDecode u = .next v ∧ v.status.res = .exception ∧ v.status.excCode = e ∧ v.pdu = [p.headD 0 ||| 0x80, e])

/-- R236: the ASCII round trip, with a normal reply and with an exception reply, and the same in lower case. -/
def Obligations.AsciiRoundTrip : Prop :=
  ∀ (s t u : State) (slave : Byte) (p : List Byte) (text : List Byte → List Byte), s.pdu = p →
    exec (.asciiEncode slave) s = .next t → t.status.res = .ok → SameTransaction t u →
    ((∀ b, text b = hex b) ∨ ∀ b, text b = lowerHex (hex b)) →
    (∀ d : List Byte, d ≠ [] → d.length ≤ 252 →
      u.Received ([0x3A] ++ text (slave :: p.headD 0 :: d ++ [lrc (slave :: p.headD 0 :: d)]) ++ [0x0D, 0x0A]) →
      ∃ v, exec .asciiDecode u = .next v ∧ v.status.res = .ok ∧ v.pdu = p.headD 0 :: d) ∧
    (∀ e : Byte, (p.headD 0).toNat < 0x80 →
      u.Received ([0x3A] ++ text [slave, p.headD 0 ||| 0x80, e, lrc [slave, p.headD 0 ||| 0x80, e]] ++ [0x0D, 0x0A]) →
      ∃ v, exec .asciiDecode u = .next v ∧ v.status.res = .exception ∧ v.status.excCode = e ∧ v.pdu = [p.headD 0 ||| 0x80, e])

/-! ### The invariant -/

/-- The invariant of the block holds after reset. -/
def Obligations.InvariantHoldsAtReset : Prop := State.reset.Inv

/-- Every step keeps the invariant: the buffers' canonical form, and the ranges and relations of the registers that the rules give. -/
def Obligations.StepKeepsTheInvariant : Prop :=
  ∀ s t : State, s.Inv → step s = .next t → t.Inv
end

