-- ==== Sys2Proof/Laws/State.lean ====
section
/-! SUPPORT. What each named update of State does to each field; no later proof unfolds a record update. -/

namespace Sys2Proof.Machine

/-! ### `putTx` -/

@[simp] theorem putTx_status (s : State) (f : List Byte) : (s.putTx f).status = s.status := rfl
@[simp] theorem putTx_crcAcc (s : State) (f : List Byte) : (s.putTx f).crcAcc = s.crcAcc := rfl
@[simp] theorem putTx_lrcSum (s : State) (f : List Byte) : (s.putTx f).lrcSum = s.lrcSum := rfl
@[simp] theorem putTx_tid (s : State) (f : List Byte) : (s.putTx f).tid = s.tid := rfl
@[simp] theorem putTx_baud (s : State) (f : List Byte) : (s.putTx f).baud = s.baud := rfl
@[simp] theorem putTx_pduLen (s : State) (f : List Byte) : (s.putTx f).pduLen = s.pduLen := rfl
@[simp] theorem putTx_txLen (s : State) (f : List Byte) : (s.putTx f).txLen = BitVec.ofNat 10 f.length := rfl
@[simp] theorem putTx_rxLen (s : State) (f : List Byte) : (s.putTx f).rxLen = s.rxLen := rfl
@[simp] theorem putTx_rxExpect (s : State) (f : List Byte) : (s.putTx f).rxExpect = s.rxExpect := rfl
@[simp] theorem putTx_req (s : State) (f : List Byte) : (s.putTx f).req = s.req := rfl
@[simp] theorem putTx_predLen (s : State) (f : List Byte) : (s.putTx f).predLen = s.predLen := rfl
@[simp] theorem putTx_delayUs (s : State) (f : List Byte) : (s.putTx f).delayUs = s.delayUs := rfl
@[simp] theorem putTx_hdr (s : State) (f : List Byte) : (s.putTx f).hdr = s.hdr := rfl
@[simp] theorem putTx_mem (s : State) (f : List Byte) : (s.putTx f).mem = s.mem.writeRun txBase f := rfl
@[simp] theorem putTx_resets (s : State) (f : List Byte) : (s.putTx f).resets = s.resets := rfl
@[simp] theorem putTx_pending (s : State) (f : List Byte) : (s.putTx f).pending = s.pending := rfl
@[simp] theorem putTx_response (s : State) (f : List Byte) : (s.putTx f).response = s.response := rfl

/-! ### `putPdu` -/

@[simp] theorem putPdu_status (s : State) (p : List Byte) : (s.putPdu p).status = s.status := rfl
@[simp] theorem putPdu_crcAcc (s : State) (p : List Byte) : (s.putPdu p).crcAcc = s.crcAcc := rfl
@[simp] theorem putPdu_lrcSum (s : State) (p : List Byte) : (s.putPdu p).lrcSum = s.lrcSum := rfl
@[simp] theorem putPdu_tid (s : State) (p : List Byte) : (s.putPdu p).tid = s.tid := rfl
@[simp] theorem putPdu_baud (s : State) (p : List Byte) : (s.putPdu p).baud = s.baud := rfl
@[simp] theorem putPdu_pduLen (s : State) (p : List Byte) : (s.putPdu p).pduLen = BitVec.ofNat 9 p.length := rfl
@[simp] theorem putPdu_txLen (s : State) (p : List Byte) : (s.putPdu p).txLen = s.txLen := rfl
@[simp] theorem putPdu_rxLen (s : State) (p : List Byte) : (s.putPdu p).rxLen = s.rxLen := rfl
@[simp] theorem putPdu_rxExpect (s : State) (p : List Byte) : (s.putPdu p).rxExpect = s.rxExpect := rfl
@[simp] theorem putPdu_req (s : State) (p : List Byte) : (s.putPdu p).req = s.req := rfl
@[simp] theorem putPdu_predLen (s : State) (p : List Byte) : (s.putPdu p).predLen = s.predLen := rfl
@[simp] theorem putPdu_delayUs (s : State) (p : List Byte) : (s.putPdu p).delayUs = s.delayUs := rfl
@[simp] theorem putPdu_hdr (s : State) (p : List Byte) : (s.putPdu p).hdr = s.hdr := rfl
@[simp] theorem putPdu_mem (s : State) (p : List Byte) : (s.putPdu p).mem = s.mem.writeRun pduBase p := rfl
@[simp] theorem putPdu_resets (s : State) (p : List Byte) : (s.putPdu p).resets = s.resets := rfl
@[simp] theorem putPdu_pending (s : State) (p : List Byte) : (s.putPdu p).pending = s.pending := rfl
@[simp] theorem putPdu_response (s : State) (p : List Byte) : (s.putPdu p).response = s.response := rfl

/-! ### `latch` -/

@[simp] theorem latch_status (s : State) (m : Format) (sl fc : Byte) (t : Half) : (s.latch m sl fc t).status = s.status := rfl
@[simp] theorem latch_crcAcc (s : State) (m : Format) (sl fc : Byte) (t : Half) : (s.latch m sl fc t).crcAcc = s.crcAcc := rfl
@[simp] theorem latch_lrcSum (s : State) (m : Format) (sl fc : Byte) (t : Half) : (s.latch m sl fc t).lrcSum = s.lrcSum := rfl
@[simp] theorem latch_tid (s : State) (m : Format) (sl fc : Byte) (t : Half) : (s.latch m sl fc t).tid = s.tid := rfl
@[simp] theorem latch_baud (s : State) (m : Format) (sl fc : Byte) (t : Half) : (s.latch m sl fc t).baud = s.baud := rfl
@[simp] theorem latch_pduLen (s : State) (m : Format) (sl fc : Byte) (t : Half) : (s.latch m sl fc t).pduLen = s.pduLen := rfl
@[simp] theorem latch_txLen (s : State) (m : Format) (sl fc : Byte) (t : Half) : (s.latch m sl fc t).txLen = s.txLen := rfl
@[simp] theorem latch_rxLen (s : State) (m : Format) (sl fc : Byte) (t : Half) : (s.latch m sl fc t).rxLen = s.rxLen := rfl
@[simp] theorem latch_rxExpect (s : State) (m : Format) (sl fc : Byte) (t : Half) : (s.latch m sl fc t).rxExpect = s.rxExpect := rfl
@[simp] theorem latch_req (s : State) (m : Format) (sl fc : Byte) (t : Half) : (s.latch m sl fc t).req = ⟨m, sl, fc, t⟩ := rfl
@[simp] theorem latch_predLen (s : State) (m : Format) (sl fc : Byte) (t : Half) : (s.latch m sl fc t).predLen = s.predLen := rfl
@[simp] theorem latch_delayUs (s : State) (m : Format) (sl fc : Byte) (t : Half) : (s.latch m sl fc t).delayUs = s.delayUs := rfl
@[simp] theorem latch_hdr (s : State) (m : Format) (sl fc : Byte) (t : Half) : (s.latch m sl fc t).hdr = s.hdr := rfl
@[simp] theorem latch_mem (s : State) (m : Format) (sl fc : Byte) (t : Half) : (s.latch m sl fc t).mem = s.mem := rfl
@[simp] theorem latch_resets (s : State) (m : Format) (sl fc : Byte) (t : Half) : (s.latch m sl fc t).resets = s.resets := rfl
@[simp] theorem latch_pending (s : State) (m : Format) (sl fc : Byte) (t : Half) : (s.latch m sl fc t).pending = s.pending := rfl
@[simp] theorem latch_response (s : State) (m : Format) (sl fc : Byte) (t : Half) : (s.latch m sl fc t).response = s.response := rfl

/-! ### `complete` -/

@[simp] theorem complete_status (s : State) (op : Byte) (r : Res) (e : Byte) : (s.complete op r e).status = ⟨r, .none, e, op⟩ := rfl
@[simp] theorem complete_crcAcc (s : State) (op : Byte) (r : Res) (e : Byte) : (s.complete op r e).crcAcc = s.crcAcc := rfl
@[simp] theorem complete_lrcSum (s : State) (op : Byte) (r : Res) (e : Byte) : (s.complete op r e).lrcSum = s.lrcSum := rfl
@[simp] theorem complete_tid (s : State) (op : Byte) (r : Res) (e : Byte) : (s.complete op r e).tid = s.tid := rfl
@[simp] theorem complete_baud (s : State) (op : Byte) (r : Res) (e : Byte) : (s.complete op r e).baud = s.baud := rfl
@[simp] theorem complete_pduLen (s : State) (op : Byte) (r : Res) (e : Byte) : (s.complete op r e).pduLen = s.pduLen := rfl
@[simp] theorem complete_txLen (s : State) (op : Byte) (r : Res) (e : Byte) : (s.complete op r e).txLen = s.txLen := rfl
@[simp] theorem complete_rxLen (s : State) (op : Byte) (r : Res) (e : Byte) : (s.complete op r e).rxLen = s.rxLen := rfl
@[simp] theorem complete_rxExpect (s : State) (op : Byte) (r : Res) (e : Byte) : (s.complete op r e).rxExpect = s.rxExpect := rfl
@[simp] theorem complete_req (s : State) (op : Byte) (r : Res) (e : Byte) : (s.complete op r e).req = s.req := rfl
@[simp] theorem complete_predLen (s : State) (op : Byte) (r : Res) (e : Byte) : (s.complete op r e).predLen = s.predLen := rfl
@[simp] theorem complete_delayUs (s : State) (op : Byte) (r : Res) (e : Byte) : (s.complete op r e).delayUs = s.delayUs := rfl
@[simp] theorem complete_hdr (s : State) (op : Byte) (r : Res) (e : Byte) : (s.complete op r e).hdr = s.hdr := rfl
@[simp] theorem complete_mem (s : State) (op : Byte) (r : Res) (e : Byte) : (s.complete op r e).mem = s.mem := rfl
@[simp] theorem complete_resets (s : State) (op : Byte) (r : Res) (e : Byte) : (s.complete op r e).resets = s.resets := rfl
@[simp] theorem complete_pending (s : State) (op : Byte) (r : Res) (e : Byte) : (s.complete op r e).pending = s.pending := rfl
@[simp] theorem complete_response (s : State) (op : Byte) (r : Res) (e : Byte) : (s.complete op r e).response = s.response := rfl

/-! ### `raise` -/

@[simp] theorem raise_crcAcc (s : State) (op : Byte) (e : CmdError) : (s.raise op e).crcAcc = s.crcAcc := by cases e <;> rfl
@[simp] theorem raise_lrcSum (s : State) (op : Byte) (e : CmdError) : (s.raise op e).lrcSum = s.lrcSum := by cases e <;> rfl
@[simp] theorem raise_tid (s : State) (op : Byte) (e : CmdError) : (s.raise op e).tid = s.tid := by cases e <;> rfl
@[simp] theorem raise_baud (s : State) (op : Byte) (e : CmdError) : (s.raise op e).baud = s.baud := by cases e <;> rfl
@[simp] theorem raise_pduLen (s : State) (op : Byte) (e : CmdError) : (s.raise op e).pduLen = s.pduLen := by cases e <;> rfl
@[simp] theorem raise_txLen (s : State) (op : Byte) (e : CmdError) : (s.raise op e).txLen = s.txLen := by cases e <;> rfl
@[simp] theorem raise_rxLen (s : State) (op : Byte) (e : CmdError) : (s.raise op e).rxLen = s.rxLen := by cases e <;> rfl
@[simp] theorem raise_rxExpect (s : State) (op : Byte) (e : CmdError) : (s.raise op e).rxExpect = s.rxExpect := by cases e <;> rfl
@[simp] theorem raise_req (s : State) (op : Byte) (e : CmdError) : (s.raise op e).req = s.req := by cases e <;> rfl
@[simp] theorem raise_predLen (s : State) (op : Byte) (e : CmdError) : (s.raise op e).predLen = s.predLen := by cases e <;> rfl
@[simp] theorem raise_delayUs (s : State) (op : Byte) (e : CmdError) : (s.raise op e).delayUs = s.delayUs := by cases e <;> rfl
@[simp] theorem raise_hdr (s : State) (op : Byte) (e : CmdError) : (s.raise op e).hdr = s.hdr := by cases e <;> rfl
@[simp] theorem raise_mem (s : State) (op : Byte) (e : CmdError) : (s.raise op e).mem = s.mem := by cases e <;> rfl
@[simp] theorem raise_resets (s : State) (op : Byte) (e : CmdError) : (s.raise op e).resets = s.resets := by cases e <;> rfl
@[simp] theorem raise_pending (s : State) (op : Byte) (e : CmdError) : (s.raise op e).pending = s.pending := by cases e <;> rfl
@[simp] theorem raise_response (s : State) (op : Byte) (e : CmdError) : (s.raise op e).response = s.response := by cases e <;> rfl

@[simp] theorem raise_param_status (s : State) (op : Byte) (c : Cause) :
    (s.raise op (.param c)).status = ⟨.paramErr, c, 0, op⟩ := rfl
@[simp] theorem raise_frame_status (s : State) (op : Byte) (c : Cause) :
    (s.raise op (.frame c)).status = ⟨.frameErr, c, 0, op⟩ := rfl

/-! ### `illegal` -/

@[simp] theorem illegal_status (s : State) (op : Byte) : (s.illegal op).status = ⟨.illegalCmd, .none, 0, op⟩ := rfl
@[simp] theorem illegal_crcAcc (s : State) (op : Byte) : (s.illegal op).crcAcc = s.crcAcc := rfl
@[simp] theorem illegal_lrcSum (s : State) (op : Byte) : (s.illegal op).lrcSum = s.lrcSum := rfl
@[simp] theorem illegal_tid (s : State) (op : Byte) : (s.illegal op).tid = s.tid := rfl
@[simp] theorem illegal_baud (s : State) (op : Byte) : (s.illegal op).baud = s.baud := rfl
@[simp] theorem illegal_pduLen (s : State) (op : Byte) : (s.illegal op).pduLen = s.pduLen := rfl
@[simp] theorem illegal_txLen (s : State) (op : Byte) : (s.illegal op).txLen = s.txLen := rfl
@[simp] theorem illegal_rxLen (s : State) (op : Byte) : (s.illegal op).rxLen = s.rxLen := rfl
@[simp] theorem illegal_rxExpect (s : State) (op : Byte) : (s.illegal op).rxExpect = s.rxExpect := rfl
@[simp] theorem illegal_req (s : State) (op : Byte) : (s.illegal op).req = s.req := rfl
@[simp] theorem illegal_predLen (s : State) (op : Byte) : (s.illegal op).predLen = s.predLen := rfl
@[simp] theorem illegal_delayUs (s : State) (op : Byte) : (s.illegal op).delayUs = s.delayUs := rfl
@[simp] theorem illegal_hdr (s : State) (op : Byte) : (s.illegal op).hdr = s.hdr := rfl
@[simp] theorem illegal_mem (s : State) (op : Byte) : (s.illegal op).mem = s.mem := rfl
@[simp] theorem illegal_resets (s : State) (op : Byte) : (s.illegal op).resets = s.resets := rfl
@[simp] theorem illegal_pending (s : State) (op : Byte) : (s.illegal op).pending = s.pending := rfl
@[simp] theorem illegal_response (s : State) (op : Byte) : (s.illegal op).response = s.response := rfl

/-! ### `answer` -/

@[simp] theorem answer_status (s : State) (r : Response) : (s.answer r).status = s.status := rfl
@[simp] theorem answer_crcAcc (s : State) (r : Response) : (s.answer r).crcAcc = s.crcAcc := rfl
@[simp] theorem answer_lrcSum (s : State) (r : Response) : (s.answer r).lrcSum = s.lrcSum := rfl
@[simp] theorem answer_tid (s : State) (r : Response) : (s.answer r).tid = s.tid := rfl
@[simp] theorem answer_baud (s : State) (r : Response) : (s.answer r).baud = s.baud := rfl
@[simp] theorem answer_pduLen (s : State) (r : Response) : (s.answer r).pduLen = s.pduLen := rfl
@[simp] theorem answer_txLen (s : State) (r : Response) : (s.answer r).txLen = s.txLen := rfl
@[simp] theorem answer_rxLen (s : State) (r : Response) : (s.answer r).rxLen = s.rxLen := rfl
@[simp] theorem answer_rxExpect (s : State) (r : Response) : (s.answer r).rxExpect = s.rxExpect := rfl
@[simp] theorem answer_req (s : State) (r : Response) : (s.answer r).req = s.req := rfl
@[simp] theorem answer_predLen (s : State) (r : Response) : (s.answer r).predLen = s.predLen := rfl
@[simp] theorem answer_delayUs (s : State) (r : Response) : (s.answer r).delayUs = s.delayUs := rfl
@[simp] theorem answer_hdr (s : State) (r : Response) : (s.answer r).hdr = s.hdr := rfl
@[simp] theorem answer_mem (s : State) (r : Response) : (s.answer r).mem = s.mem := rfl
@[simp] theorem answer_resets (s : State) (r : Response) : (s.answer r).resets = s.resets := rfl
@[simp] theorem answer_pending (s : State) (r : Response) : (s.answer r).pending = s.pending := rfl
@[simp] theorem answer_response (s : State) (r : Response) : (s.answer r).response = r := rfl

/-! ### `afterReset` -/

@[simp] theorem afterReset_status (s : State) : s.afterReset.status = State.reset.status := rfl
@[simp] theorem afterReset_crcAcc (s : State) : s.afterReset.crcAcc = State.reset.crcAcc := rfl
@[simp] theorem afterReset_lrcSum (s : State) : s.afterReset.lrcSum = State.reset.lrcSum := rfl
@[simp] theorem afterReset_tid (s : State) : s.afterReset.tid = State.reset.tid := rfl
@[simp] theorem afterReset_baud (s : State) : s.afterReset.baud = State.reset.baud := rfl
@[simp] theorem afterReset_pduLen (s : State) : s.afterReset.pduLen = State.reset.pduLen := rfl
@[simp] theorem afterReset_txLen (s : State) : s.afterReset.txLen = State.reset.txLen := rfl
@[simp] theorem afterReset_rxLen (s : State) : s.afterReset.rxLen = State.reset.rxLen := rfl
@[simp] theorem afterReset_rxExpect (s : State) : s.afterReset.rxExpect = State.reset.rxExpect := rfl
@[simp] theorem afterReset_req (s : State) : s.afterReset.req = State.reset.req := rfl
@[simp] theorem afterReset_predLen (s : State) : s.afterReset.predLen = State.reset.predLen := rfl
@[simp] theorem afterReset_delayUs (s : State) : s.afterReset.delayUs = State.reset.delayUs := rfl
@[simp] theorem afterReset_hdr (s : State) : s.afterReset.hdr = State.reset.hdr := rfl
@[simp] theorem afterReset_mem (s : State) : s.afterReset.mem = State.reset.mem := rfl
@[simp] theorem afterReset_resets (s : State) : s.afterReset.resets = s.resets + 1 := rfl
@[simp] theorem afterReset_pending (s : State) : s.afterReset.pending = s.pending := rfl
@[simp] theorem afterReset_response (s : State) : s.afterReset.response = State.reset.response := rfl

end Sys2Proof.Machine
end

