-- ==== Sys2Proof/Laws/Memory.lean ====
section
/-! SUPPORT. The laws of the buffers: a read after a write, runs of bytes, and the canonical form. -/

namespace Sys2Proof.Machine

/-! ### One byte -/

theorem lookup_write (m : Memory) (a x : Nat) (b : Byte) :
    (m.write a b).lookup x = if x = a then some b else m.lookup x := by
  induction m with
  | nil => simp [Memory.write, Memory.lookup]
  | cons c m ih =>
    obtain ⟨k, v⟩ := c
    simp only [Memory.write]
    split
    · simp [Memory.lookup]
    · split
      · next h => subst h; simp only [Memory.lookup]; split <;> rfl
      · next h1 h2 =>
        simp only [Memory.lookup, ih]
        split
        · next hx => subst hx; simp [Ne.symm h2]
        · rfl

/-! ### A run of bytes -/

theorem lookup_writeRun_outside (m : Memory) (a x : Nat) (bs : List Byte) (h : ¬ (a ≤ x ∧ x < a + bs.length)) :
    (m.writeRun a bs).lookup x = m.lookup x := by
  induction bs generalizing m a with
  | nil => rfl
  | cons b bs ih =>
    simp only [List.length_cons] at h
    rw [Memory.writeRun, ih _ _ (by omega), lookup_write, if_neg (by omega)]

theorem lookup_writeRun_inside (m : Memory) (a i : Nat) (bs : List Byte) (h : i < bs.length) :
    (m.writeRun a bs).lookup (a + i) = some bs[i] := by
  induction bs generalizing m a i with
  | nil => simp at h
  | cons b bs ih =>
    rw [Memory.writeRun]
    cases i with
    | zero => rw [lookup_writeRun_outside _ _ _ _ (by omega), lookup_write]; simp
    | succ i =>
      have := ih (m.write a b) (a + 1) i (by simpa using h)
      rw [show a + (i + 1) = a + 1 + i by omega, this]; simp

/-! ### Reading State's bytes -/

@[simp] theorem length_bytes (s : State) (a n : Nat) : (s.bytes a n).length = n := by
  induction n generalizing a with
  | zero => rfl
  | succ n ih => simp [State.bytes, ih]

@[simp] theorem getElem_bytes (s : State) (a n i : Nat) (h : i < (s.bytes a n).length) :
    (s.bytes a n)[i] = s.byteAt (a + i) := by
  induction n generalizing a i with
  | zero => simp [State.bytes] at h
  | succ n ih =>
    cases i with
    | zero => simp [State.bytes]
    | succ i =>
      simp only [State.bytes, List.getElem_cons_succ]
      rw [ih]; congr 1; omega

theorem bytes_eq_iff (s : State) (a : Nat) (f : List Byte) :
    s.bytes a f.length = f ↔ ∀ i (h : i < f.length), s.byteAt (a + i) = f[i] := by
  constructor
  · intro h i hi
    have := getElem_bytes s a f.length i (by simpa using hi)
    rw [← this]; simp only [h]
  · intro h
    apply List.ext_getElem (by simp)
    intro i h1 h2
    rw [getElem_bytes, h i h2]

/-- Two states with the same bytes in a range read the same run there. -/
theorem bytes_congr {s t : State} {a n : Nat} (h : ∀ i < n, t.byteAt (a + i) = s.byteAt (a + i)) :
    t.bytes a n = s.bytes a n := by
  apply List.ext_getElem (by simp)
  intro i h1 h2
  rw [getElem_bytes, getElem_bytes, h i (by simpa using h1)]

theorem byteAt_congr {s t : State} (hm : t.mem = s.mem) (hr : t.resets = s.resets) (a : Nat) :
    t.byteAt a = s.byteAt a := by simp [State.byteAt, hm, hr]

theorem bytes_same {s t : State} (hm : t.mem = s.mem) (hr : t.resets = s.resets) (a n : Nat) : t.bytes a n = s.bytes a n :=
  bytes_congr fun _ _ => byteAt_congr hm hr _

theorem bytes_split (s : State) (a n k : Nat) : s.bytes a (n + k) = s.bytes a n ++ s.bytes (a + n) k := by
  induction n generalizing a with
  | zero => simp [State.bytes]
  | succ n ih =>
    rw [show n + 1 + k = (n + k) + 1 by omega]
    simp only [State.bytes, List.cons_append, ih]
    rw [show a + 1 + n = a + (n + 1) by omega]

/-- What a run written at `a` leaves outside itself, and what it puts there. -/
theorem byteAt_writeRun_outside {s t : State} {a : Nat} {bs : List Byte} (hm : t.mem = s.mem.writeRun a bs)
    (hr : t.resets = s.resets) {x : Nat} (h : ¬ (a ≤ x ∧ x < a + bs.length)) : t.byteAt x = s.byteAt x := by
  simp [State.byteAt, hm, hr, lookup_writeRun_outside _ _ _ _ h]

theorem bytes_writeRun_same {s t : State} {a : Nat} {bs : List Byte} (hm : t.mem = s.mem.writeRun a bs) :
    t.bytes a bs.length = bs := by
  rw [bytes_eq_iff]
  intro i h
  simp [State.byteAt, hm, lookup_writeRun_inside _ _ _ _ h]

theorem byteAt_write {s t : State} {a : Nat} {b : Byte} (hm : t.mem = s.mem.write a b) (hr : t.resets = s.resets)
    (x : Nat) : t.byteAt x = if x = a then b else s.byteAt x := by
  simp only [State.byteAt, hm, hr, lookup_write]
  split <;> rfl

/-! ### The canonical form -/

theorem mem_write {m : Memory} {a : Nat} {b : Byte} {c : Host.Cell} (h : c ∈ m.write a b) : c = (a, b) ∨ c ∈ m := by
  induction m with
  | nil => simpa [Memory.write] using h
  | cons d m ih =>
    obtain ⟨k, v⟩ := d
    simp only [Memory.write] at h
    split at h
    · simpa using h
    · split at h
      · rcases List.mem_cons.1 h with h | h
        · exact .inl h
        · exact .inr (List.mem_cons_of_mem _ h)
      · rcases List.mem_cons.1 h with h | h
        · exact .inr (h ▸ List.mem_cons_self)
        · exact (ih h).imp id (List.mem_cons_of_mem _)

theorem wf_write {m : Memory} {a : Nat} {b : Byte} (hm : m.wf) (ha : isBufferByte a = true) : (m.write a b).wf := by
  refine ⟨?_, fun c hc => ?_⟩
  · obtain ⟨hp, -⟩ := hm
    induction m with
    | nil => simp [Memory.write]
    | cons d m ih =>
      obtain ⟨k, v⟩ := d
      rw [List.pairwise_cons] at hp
      simp only [Memory.write]
      split
      · next h =>
        refine List.pairwise_cons.2 ⟨fun c hc => ?_, List.pairwise_cons.2 hp⟩
        rcases List.mem_cons.1 hc with rfl | hc
        · exact h
        · exact lt_trans h (hp.1 c hc)
      · split
        · next h => subst h; exact List.pairwise_cons.2 hp
        · next h1 h2 =>
          refine List.pairwise_cons.2 ⟨fun c hc => ?_, ih hp.2⟩
          rcases mem_write hc with rfl | hc
          · show k < a; omega
          · exact hp.1 c hc
  · rcases mem_write hc with rfl | hc
    · exact ha
    · exact hm.2 c hc

theorem wf_writeRun {m : Memory} {a : Nat} {bs : List Byte} (hm : m.wf)
    (ha : ∀ i < bs.length, isBufferByte (a + i) = true) : (m.writeRun a bs).wf := by
  induction bs generalizing m a with
  | nil => exact hm
  | cons b bs ih =>
    refine ih (wf_write hm (by simpa using ha 0 (by simp))) (fun i hi => ?_)
    have := ha (i + 1) (by simpa using hi)
    rwa [show a + 1 + i = a + (i + 1) by omega]

theorem isBufferByte_iff (a : Nat) : isBufferByte a = true ↔
    (0x100 ≤ a ∧ a < 0x1FD) ∨ (0x400 ≤ a ∧ a < 0x601) ∨ (0x800 ≤ a ∧ a < 0xA01) := by
  simp only [isBufferByte, Bool.or_eq_true, Bool.and_eq_true, decide_eq_true_eq]
  simp only [pduBase, pduSize, txBase, txSize, rxBase, rxSize]
  omega

theorem isBufferByte_pdu {i : Nat} (h : i < pduSize) : isBufferByte (pduBase + i) = true := by
  rw [isBufferByte_iff]
  simp only [pduBase, pduSize] at *
  omega

theorem isBufferByte_tx {i : Nat} (h : i < txSize) : isBufferByte (txBase + i) = true := by
  rw [isBufferByte_iff]
  simp only [txBase, txSize] at *
  omega

theorem isBufferByte_rx {i : Nat} (h : i < rxSize) : isBufferByte (rxBase + i) = true := by
  rw [isBufferByte_iff]
  simp only [rxBase, rxSize] at *
  omega

theorem wf_putTx {s : State} {f : List Byte} (hm : s.mem.wf) (h : f.length ≤ txSize) : (s.putTx f).mem.wf :=
  wf_writeRun hm fun _ hi => isBufferByte_tx (lt_of_lt_of_le hi h)

theorem wf_putPdu {s : State} {p : List Byte} (hm : s.mem.wf) (h : p.length ≤ pduSize) : (s.putPdu p).mem.wf :=
  wf_writeRun hm fun _ hi => isBufferByte_pdu (lt_of_lt_of_le hi h)

end Sys2Proof.Machine
end

