-- ==== Sys2Proof/Laws/Bus.lean ====
section
/-! SUPPORT. The window map, and what one byte read and one byte write do at every offset. -/

namespace Sys2Proof.Machine

/-- The map of 20_memory.md R62, region by region. -/
theorem region_cases (a : Nat) :
    (region a = .registers ∧ a ≤ 0x43) ∨ (region a = .pdu ∧ 0x100 ≤ a ∧ a ≤ 0x1FC) ∨ (region a = .tx ∧ 0x400 ≤ a ∧ a ≤ 0x600) ∨
    (region a = .rx ∧ 0x800 ≤ a ∧ a ≤ 0xA00) ∨
    (region a = .reserved ∧ (0x1FD ≤ a ∧ a ≤ 0x1FF ∨ 0x601 ≤ a ∧ a ≤ 0x7FF ∨ 0xA01 ≤ a ∧ a ≤ 0xBFF)) ∨
    (region a = .unmapped ∧ (0x44 ≤ a ∧ a ≤ 0xFF ∨ 0x200 ≤ a ∧ a ≤ 0x3FF ∨ 0xC00 ≤ a)) := by
  unfold region
  repeat' split
  all_goals simp
  all_goals omega

theorem region_window (a : Nat) : (region a).isBufferWindow = true ↔
    (0x100 ≤ a ∧ a ≤ 0x1FF) ∨ (0x400 ≤ a ∧ a ≤ 0x7FF) ∨ (0x800 ≤ a ∧ a ≤ 0xBFF) := by
  unfold region
  repeat' split
  all_goals simp [Region.isBufferWindow]
  all_goals omega

theorem region_registers (a : Nat) : region a = .registers ↔ a ≤ 0x43 := by
  unfold region
  repeat' split
  all_goals simp
  all_goals omega

theorem legal8_iff (a : Addr) : legal8 a = true ↔
    (0x100 ≤ a.toNat ∧ a.toNat ≤ 0x1FF) ∨ (0x400 ≤ a.toNat ∧ a.toNat ≤ 0x7FF) ∨ (0x800 ≤ a.toNat ∧ a.toNat ≤ 0xBFF) := region_window _

theorem legal32_iff (a : Addr) : legal32 a = true ↔ a.toNat % 4 = 0 ∧ (a.toNat ≤ 0x43 ∨
    (0x100 ≤ a.toNat ∧ a.toNat ≤ 0x1FF) ∨ (0x400 ≤ a.toNat ∧ a.toNat ≤ 0x7FF) ∨ (0x800 ≤ a.toNat ∧ a.toNat ≤ 0xBFF)) := by
  simp only [legal32, Bool.and_eq_true, Bool.or_eq_true, beq_iff_eq, region_registers, region_window]

/-- Reading a byte of the window: a buffer byte, 0 elsewhere (R62, R47). -/
theorem windowByte_eq (s : State) (a : Nat) : s.windowByte a = if isBufferByte a = true then s.byteAt a else 0 := by
  have hb := isBufferByte_iff a
  rcases region_cases a with ⟨h, h'⟩ | ⟨h, h'⟩ | ⟨h, h'⟩ | ⟨h, h'⟩ | ⟨h, h'⟩ | ⟨h, h'⟩ <;>
    simp only [State.windowByte, h]
  · rw [if_neg (by rw [hb]; omega)]
  · rw [if_pos (by rw [hb]; omega)]
  · rw [if_pos (by rw [hb]; omega)]
  · rw [if_pos (by rw [hb]; omega)]
  · rw [if_neg (by rw [hb]; omega)]
  · rw [if_neg (by rw [hb]; omega)]

/-- Writing a byte of the window: only PDU and RX bytes are stored, and nothing else changes (R62, R63). -/
theorem writeWindowByte_spec (s : State) (a : Nat) (b : Byte) :
    { s.writeWindowByte a b with mem := s.mem } = s ∧
    ∀ x, (s.writeWindowByte a b).byteAt x =
      if x = a ∧ (0x100 ≤ a ∧ a ≤ 0x1FC ∨ 0x800 ≤ a ∧ a ≤ 0xA00) then b else s.byteAt x := by
  rcases region_cases a with ⟨h, h'⟩ | ⟨h, h'⟩ | ⟨h, h'⟩ | ⟨h, h'⟩ | ⟨h, h'⟩ | ⟨h, h'⟩ <;>
    simp only [State.writeWindowByte, h] <;> refine ⟨trivial, fun x => ?_⟩
  · rw [if_neg (by omega)]
  · rw [byteAt_write (s := s) (t := { s with mem := s.mem.write a b }) rfl rfl]; congr 1; apply propext; omega
  · rw [if_neg (by omega)]
  · rw [byteAt_write (s := s) (t := { s with mem := s.mem.write a b }) rfl rfl]; congr 1; apply propext; omega
  · rw [if_neg (by omega)]
  · rw [if_neg (by omega)]

/-- A byte write keeps the buffers' canonical form: only buffer bytes are stored. -/
theorem wf_writeWindowByte {s : State} (a : Nat) (b : Byte) (hm : s.mem.wf) : (s.writeWindowByte a b).mem.wf := by
  have hb := isBufferByte_iff a
  rcases region_cases a with ⟨h, h'⟩ | ⟨h, h'⟩ | ⟨h, h'⟩ | ⟨h, h'⟩ | ⟨h, h'⟩ | ⟨h, h'⟩ <;> simp only [State.writeWindowByte, h]
  · exact hm
  · exact wf_write hm (by rw [hb]; omega)
  · exact hm
  · exact wf_write hm (by rw [hb]; omega)
  · exact hm
  · exact hm

/-- No register stands above 0x043 (R22). -/
theorem regAt_none {a : Addr} (h : 0x43 < a.toNat) : regAt a = none := by
  simp only [regAt, List.find?_eq_none, Reg.all]
  intro r _ hr
  have : a = r.offset := (by simpa using hr : r.offset = a).symm
  subst this
  revert h; cases r <;> decide

/-- Every aligned offset of the register range is a register's (R22). -/
theorem regAt_some : ∀ a : Addr, a.toNat ≤ 0x40 → a.toNat % 4 = 0 → ∃ r, regAt a = some r ∧ r.offset = a := by
  intro a h1 h2
  obtain ⟨k, hk⟩ : ∃ k, a.toNat = 4 * k := ⟨a.toNat / 4, by omega⟩
  have hk' : k ≤ 16 := by omega
  have ha : a = BitVec.ofNat 12 (4 * k) := by apply BitVec.eq_of_toNat_eq; simp; omega
  subst ha
  clear hk h1 h2
  interval_cases k
  exacts [⟨.cmd, rfl, rfl⟩, ⟨.status, rfl, rfl⟩, ⟨.crc, rfl, rfl⟩, ⟨.lrc, rfl, rfl⟩, ⟨.tid, rfl, rfl⟩, ⟨.baud, rfl, rfl⟩, ⟨.pduLen, rfl, rfl⟩, ⟨.txLen, rfl, rfl⟩, ⟨.rxLen, rfl, rfl⟩, ⟨.rxExpect, rfl, rfl⟩, ⟨.req, rfl, rfl⟩, ⟨.reqTid, rfl, rfl⟩, ⟨.predLen, rfl, rfl⟩, ⟨.delayLo, rfl, rfl⟩, ⟨.delayHi, rfl, rfl⟩, ⟨.hdr0, rfl, rfl⟩, ⟨.hdr1, rfl, rfl⟩]

end Sys2Proof.Machine
end

