-- ==== Sys2Proof/Laws/Operands.lean ====
section
/-! SUPPORT. Byte orders, `check_pdu`, `classify`, and how a command ends: one lemma per shared operation. -/

namespace Sys2Proof.Machine

/-! ### Byte orders -/

@[simp] theorem toNat_be16Of (hi lo : Byte) : (be16Of hi lo).toNat = hi.toNat * 256 + lo.toNat := by
  simp only [be16Of, BitVec.toNat_append]
  rw [← Nat.shiftLeft_add_eq_or_of_lt lo.isLt, Nat.shiftLeft_eq]

@[simp] theorem toNat_le16Of (lo hi : Byte) : (le16Of lo hi).toNat = lo.toNat + hi.toNat * 256 := by
  simp only [le16Of, BitVec.toNat_append]
  rw [← Nat.shiftLeft_add_eq_or_of_lt lo.isLt, Nat.shiftLeft_eq]; omega

theorem be16Of_eq_ofNat (hi lo : Byte) : be16Of hi lo = BitVec.ofNat 16 (hi.toNat * 256 + lo.toNat) := by
  apply BitVec.eq_of_toNat_eq
  have := hi.isLt; have := lo.isLt
  simp; omega

@[simp] theorem be16Of_be16 (v : Half) : be16Of (v.extractLsb' 8 8) (v.extractLsb' 0 8) = v := by
  apply BitVec.eq_of_toNat_eq
  have := v.isLt
  simp [Nat.shiftRight_eq_div_pow]; omega

@[simp] theorem le16Of_le16 (v : Half) : le16Of (v.extractLsb' 0 8) (v.extractLsb' 8 8) = v := by
  apply BitVec.eq_of_toNat_eq
  have := v.isLt
  simp [Nat.shiftRight_eq_div_pow]; omega

@[simp] theorem length_be16 (v : Half) : (be16 v).length = 2 := rfl

@[simp] theorem length_le16 (v : Half) : (le16 v).length = 2 := rfl

/-! ### How a command ends -/

@[simp] theorem settle_ok (op : Byte) (s t : State) : settle op s (.ok t) = .next t := rfl

@[simp] theorem settle_error (op : Byte) (s : State) (e : CmdError) : settle op s (.error e) = .next (s.raise op e) := rfl

/-- All a command can do: end as its body says, or change `STATUS` alone (40_common.md R111). -/
theorem settle_cases {op : Byte} {s t : State} {body : Except CmdError State} (h : settle op s body = .next t) :
    body = .ok t ∨ ∃ e, body = .error e ∧ t = s.raise op e := by
  cases body with
  | ok u => simp only [settle, Host.Outcome.next.injEq] at h; exact .inl (by rw [h])
  | error e => simp only [settle, Host.Outcome.next.injEq] at h; exact .inr ⟨e, rfl, h.symm⟩

/-! ### The PDU -/

theorem pdu_eq (s : State) : s.pdu = s.bytes 0x100 s.pduLen.toNat := rfl

@[simp] theorem length_pdu (s : State) : s.pdu.length = s.pduLen.toNat := by simp [State.pdu]

theorem functionCode_pdu {s : State} (h : 1 ≤ s.pduLen.toNat) : functionCode s.pdu = s.byteAt 0x100 := by
  rw [pdu_eq]
  obtain ⟨n, hn⟩ := Nat.exists_eq_add_of_le h
  rw [hn, show 1 + n = n + 1 by omega]; rfl

theorem checkPdu_ok {s : State} (h1 : 1 ≤ s.pduLen.toNat) (h2 : s.pduLen.toNat ≤ 253) : checkPdu s = .ok s.pdu := by
  simp only [checkPdu, pduMin, pduMax]; rw [if_neg (by omega)]

theorem checkPdu_error {s : State} (h : ¬ (1 ≤ s.pduLen.toNat ∧ s.pduLen.toNat ≤ 253)) :
    checkPdu s = .error (.param .pduSize) := by
  simp only [checkPdu, pduMin, pduMax]; rw [if_pos (by omega)]

theorem checkPdu_cases (s : State) :
    (1 ≤ s.pduLen.toNat ∧ s.pduLen.toNat ≤ 253 ∧ checkPdu s = .ok s.pdu) ∨ checkPdu s = .error (.param .pduSize) := by
  by_cases h : 1 ≤ s.pduLen.toNat ∧ s.pduLen.toNat ≤ 253
  · exact .inl ⟨h.1, h.2, checkPdu_ok h.1 h.2⟩
  · exact .inr (checkPdu_error h)

/-! ### Classification (40_common.md R115, R116, R118) -/

/-- All `classify` can answer. -/
theorem classify_cases (fc : Byte) (rsp : List Byte) :
    (classify fc rsp = .ok .normal ∧ functionCode rsp = fc ∧ rsp.tail ≠ []) ∨
    (∃ e, classify fc rsp = .ok (.exception e) ∧ functionCode rsp = fc ||| excFlag ∧ functionCode rsp ≠ fc ∧
      rsp.tail = [e]) ∨
    ∃ c, classify fc rsp = .error (.frame c) ∧ (c = .emptyData ∨ c = .excLength ∨ c = .funcMismatch) := by
  simp only [classify]
  split
  · split
    · exact .inr (.inr ⟨_, rfl, .inl rfl⟩)
    · next h1 h2 => exact .inl ⟨rfl, h1, fun h => h2 (by simp [h])⟩
  · split
    · split
      · exact .inr (.inr ⟨_, rfl, .inl rfl⟩)
      · split
        · exact .inr (.inr ⟨_, rfl, .inr (.inl rfl)⟩)
        · next h1 h2 h3 h4 =>
          simp only [ne_eq, not_not] at h4
          obtain ⟨e, he⟩ := List.length_eq_one_iff.1 h4
          exact .inr (.inl ⟨e, by simp [he], h2, h1, he⟩)
    · exact .inr (.inr ⟨_, rfl, .inr (.inr rfl)⟩)

/-- All a decoder's end can do once the frame's own checks have passed. -/
theorem classifyAndFinish_cases {op : Byte} {s t : State} {rsp : List Byte} (h : classifyAndFinish op s rsp = .ok t) :
    (t = (s.putPdu rsp).complete op .ok 0 ∧ functionCode rsp = s.req.fc) ∨
    ∃ e, t = (s.putPdu rsp).complete op .exception e ∧ functionCode rsp = s.req.fc ||| excFlag ∧
      functionCode rsp ≠ s.req.fc ∧ rsp.tail = [e] := by
  rcases classify_cases s.req.fc rsp with ⟨hc, hf, -⟩ | ⟨e, hc, hf, hn, ht⟩ | ⟨c, hc, -⟩
  · rw [classifyAndFinish, hc] at h
    exact .inl ⟨(Except.ok.inj h).symm, hf⟩
  · rw [classifyAndFinish, hc] at h
    exact .inr ⟨e, (Except.ok.inj h).symm, hf, hn, ht⟩
  · rw [classifyAndFinish, hc] at h
    cases h

theorem classifyAndFinish_error {op : Byte} {s : State} {rsp : List Byte} {e : CmdError}
    (h : classifyAndFinish op s rsp = .error e) :
    ∃ c, e = .frame c ∧ (c = .emptyData ∨ c = .excLength ∨ c = .funcMismatch) := by
  rcases classify_cases s.req.fc rsp with ⟨hc, -⟩ | ⟨e, hc, -⟩ | ⟨c, hc, h'⟩
  · rw [classifyAndFinish, hc] at h; cases h
  · rw [classifyAndFinish, hc] at h; cases h
  · rw [classifyAndFinish, hc] at h; exact ⟨c, (Except.error.inj h).symm, h'⟩

end Sys2Proof.Machine
end

