-- ==== Sys2Proof/Laws/Checksum.lean ====
section
/-! SUPPORT. The laws of the CRC, the LRC and hexadecimal text. -/

namespace Sys2Proof.Machine

/-! ### CRC -/

/-- The printed table is the loop's (41_crc16.md R131, R137). -/
theorem crcLookup_eq_crcEntry : ∀ i : Byte, crcLookup i = crcEntry i := by decide

theorem crc16_nil : crc16 [] = 0xFFFF := rfl

theorem crc16_snoc (p : List Byte) (b : Byte) : crc16 (p ++ [b]) = crcFold (crc16 p) b := by
  simp [crc16]

theorem crcShift_xor (x y : Half) : crcShift (x ^^^ y) = crcShift x ^^^ crcShift y := by
  simp only [crcShift, BitVec.getLsbD_xor, BitVec.ushiftRight_xor_distrib]
  cases x.getLsbD 0 <;> cases y.getLsbD 0 <;> simp only [Bool.xor_false, Bool.xor_true, Bool.not_true, Bool.not_false,
    Bool.false_eq_true, if_true, if_false, BitVec.xor_assoc]
  · rw [BitVec.xor_comm (y >>> 1)]
  · rw [BitVec.xor_comm (y >>> 1), ← BitVec.xor_assoc crcPoly, BitVec.xor_self, BitVec.zero_xor]

/-- Eight iterations of R131. -/
def crcShift8 (c : Half) : Half :=
  crcShift (crcShift (crcShift (crcShift (crcShift (crcShift (crcShift (crcShift c)))))))

theorem crcShift8_xor (x y : Half) : crcShift8 (x ^^^ y) = crcShift8 x ^^^ crcShift8 y := by
  simp only [crcShift8, crcShift_xor]

theorem crcShift8_high : ∀ h : Byte, crcShift8 (h ++ 0#8) = h.setWidth 16 := by decide

/-- A half word is its high byte over its low byte. -/
theorem half_split (x : Half) : x = (x.extractLsb' 8 8 ++ 0#8 : Half) ^^^ (x.setWidth 8).setWidth 16 := by
  ext i hi
  simp only [BitVec.getElem_xor, BitVec.getElem_append, BitVec.getElem_setWidth, BitVec.getLsbD_setWidth]
  by_cases h : i < 8
  · simp [h, BitVec.getLsbD_eq_getElem hi]
  · have : 8 + (i - 8) = i := by omega
    simp [h, this, BitVec.getLsbD_eq_getElem hi]

/-- The table-driven fold is the bit-serial CRC step (R130, R131). -/
theorem crcFold_eq_crcShift8 (acc : Half) (b : Byte) : crcFold acc b = crcShift8 (acc ^^^ b.setWidth 16) := by
  have h : acc ^^^ b.setWidth 16 = (acc.extractLsb' 8 8 ++ 0#8 : Half) ^^^ (acc.setWidth 8 ^^^ b).setWidth 16 := by
    conv_lhs => rw [half_split acc]
    rw [BitVec.xor_assoc, ← BitVec.setWidth_xor]
  rw [h, crcShift8_xor, crcShift8_high, crcFold, crcLookup_eq_crcEntry]
  congr 1
  apply BitVec.eq_of_toNat_eq
  have := acc.isLt
  simp [Nat.shiftRight_eq_div_pow]; omega

/-- Only index 0 has an entry whose high byte is 0. -/
theorem crcLookup_high : ∀ i : Byte, (crcLookup i).extractLsb' 8 8 = 0#8 → i = 0#8 := by decide

theorem crcLookup_zero : crcLookup 0#8 = 0#16 := by decide

/-- Folding two bytes gives 0 exactly when they are the accumulator, low byte first (44_rtu.md R201). -/
theorem crcFold_crcFold_eq_zero (c : Half) (lo hi : Byte) : crcFold (crcFold c lo) hi = 0 ↔ c = le16Of lo hi := by
  have high : ∀ (a : Half) (b : Byte), (crcFold a b).extractLsb' 8 8 = (crcLookup (a.setWidth 8 ^^^ b)).extractLsb' 8 8 := by
    intro a b
    unfold crcFold
    ext i hi
    simp only [BitVec.getElem_extractLsb', BitVec.getLsbD_xor, BitVec.getLsbD_ushiftRight]
    rw [BitVec.getLsbD_of_ge _ _ (by omega)]; simp
  have xorz : ∀ x y : Byte, x ^^^ y = 0#8 → x = y := fun x y h => by simpa using h
  constructor
  · intro h
    have h1 : (crcFold c lo).setWidth 8 ^^^ hi = 0#8 := crcLookup_high _ (by rw [← high, h]; rfl)
    have h2 : crcFold c lo >>> 8 = 0 := by
      have h' : crcFold c lo >>> 8 ^^^ crcLookup ((crcFold c lo).setWidth 8 ^^^ hi) = 0 := h
      rw [h1, crcLookup_zero] at h'; simpa using h'
    have h3 : c.setWidth 8 ^^^ lo = 0#8 := crcLookup_high _ (by
      rw [← high]; rw [show (crcFold c lo).extractLsb' 8 8 = (crcFold c lo >>> 8).setWidth 8 by
        apply BitVec.eq_of_toNat_eq; simp, h2]; rfl)
    have h4 : crcFold c lo = c >>> 8 := by unfold crcFold; rw [h3, crcLookup_zero]; simp
    rw [h4] at h1
    have e1 := xorz _ _ h1
    have e2 := xorz _ _ h3
    apply BitVec.eq_of_toNat_eq
    rw [toNat_le16Of, ← e1, ← e2]
    have := c.isLt
    simp [Nat.shiftRight_eq_div_pow]; omega
  · rintro rfl
    have e1 : (le16Of lo hi).setWidth 8 = lo := by
      apply BitVec.eq_of_toNat_eq; simp; omega
    have e2 : (le16Of lo hi >>> 8) = hi.setWidth 16 := by
      apply BitVec.eq_of_toNat_eq; simp [Nat.shiftRight_eq_div_pow]; omega
    have h4 : crcFold (le16Of lo hi) lo = hi.setWidth 16 := by
      unfold crcFold; rw [e1, e2, BitVec.xor_self, crcLookup_zero, BitVec.xor_zero]
    rw [h4]; unfold crcFold
    have e3 : (hi.setWidth 16).setWidth 8 = hi := by
      apply BitVec.eq_of_toNat_eq; simp
    rw [e3, BitVec.xor_self, crcLookup_zero]
    apply BitVec.eq_of_toNat_eq
    simp [Nat.shiftRight_eq_div_pow]; omega

/-! ### LRC -/

theorem toNat_foldl_lrcAdd (p : List Byte) (x : Byte) :
    (p.foldl lrcAdd x).toNat = (x.toNat + (p.map BitVec.toNat).sum) % 256 := by
  induction p generalizing x with
  | nil => simp [Nat.mod_eq_of_lt x.isLt]
  | cons b p ih => simp only [List.foldl_cons, ih, lrcAdd, BitVec.toNat_add, List.map_cons, List.sum_cons]; omega

theorem toNat_lrc (p : List Byte) : (lrc p).toNat = (256 - (p.map BitVec.toNat).sum % 256) % 256 := by
  simp [lrc, lrcValue, toNat_foldl_lrcAdd]

/-! ### Hexadecimal text -/

@[simp] theorem length_hex (p : List Byte) : (hex p).length = 2 * p.length := by
  induction p with
  | nil => rfl
  | cons b p ih => simp only [hex, List.length_cons, ih]; omega

theorem hex_append (p q : List Byte) : hex (p ++ q) = hex p ++ hex q := by
  induction p with
  | nil => rfl
  | cons b p ih => simp [hex, ih]

theorem nib_hexDigit : ∀ v : BitVec 4, nib (hexDigit v) = some v := by decide

theorem byte_nibbles (b : Byte) : b.extractLsb' 4 4 ++ b.extractLsb' 0 4 = b := by
  apply BitVec.eq_of_toNat_eq
  rw [BitVec.toNat_append, ← Nat.shiftLeft_add_eq_or_of_lt (BitVec.isLt _), Nat.shiftLeft_eq]
  have := b.isLt
  simp [Nat.shiftRight_eq_div_pow]; omega

theorem unhex_hex (p : List Byte) : unhex (hex p) = some p := by
  induction p with
  | nil => rfl
  | cons b p ih => simp only [hex, unhex, nib_hexDigit, ih, byte_nibbles]

/-- The hex text of a byte that ends in a byte whose place is even decodes as the two parts do. -/
theorem unhex_append {cs ds : List Byte} {p q : List Byte} (h1 : unhex cs = some p) (h2 : unhex ds = some q) :
    unhex (cs ++ ds) = some (p ++ q) := by
  induction cs using unhex.induct generalizing p with
  | case1 => simp only [unhex, Option.some.injEq] at h1; subst h1; simpa using h2
  | case2 c => simp [unhex] at h1
  | case3 c c' cs h l bs hh hl hb ih =>
    simp only [unhex, *, Option.some.injEq] at h1
    subst h1
    simp only [List.cons_append, unhex, *, ih ‹_›]
  | case4 c c' cs hn ih => simp only [unhex] at h1; cases h1

/-- When every character is a hexadecimal digit and there is an even number of them, the text decodes; otherwise it does not. -/
theorem unhex_eq_none_iff {cs : List Byte} (he : cs.length % 2 = 0) : unhex cs = none ↔ ∃ c ∈ cs, nib c = none := by
  induction cs using unhex.induct with
  | case1 => simp [unhex]
  | case2 c => simp at he
  | case3 c c' cs h l bs hh hl hb ih =>
    simp only [List.length_cons] at he
    have := ih (by omega)
    simp only [unhex, *]
    simp_all
  | case4 c c' cs hn ih =>
    simp only [List.length_cons] at he
    have := ih (by omega)
    simp only [unhex]
    refine iff_of_true trivial ?_
    cases h1 : nib c with
    | none => exact ⟨c, by simp, h1⟩
    | some h =>
      cases h2 : nib c' with
      | none => exact ⟨c', by simp, h2⟩
      | some l =>
        cases h3 : unhex cs with
        | none => obtain ⟨x, hx, hx'⟩ := this.1 h3; exact ⟨x, by simp [hx], hx'⟩
        | some bs => exact absurd h3 (fun h3 => hn h l bs h1 h2 h3)

end Sys2Proof.Machine
end

