-- ==== Sys2Proof/Laws/Encoding.lean ====
section
/-! SUPPORT. The fields of a command word, and when the decoder rejects. -/

namespace Sys2Proof

@[simp] theorem opField_commandWord (op a8 : Byte) (a16 : Half) : opField (commandWord op a8 a16) = op := by
  apply BitVec.eq_of_toNat_eq
  simp only [opField, commandWord, BitVec.extractLsb'_toNat, BitVec.toNat_append, Nat.shiftRight_zero]
  rw [Nat.shiftLeft_eq, Nat.shiftLeft_eq, ← Nat.shiftLeft_eq, ← Nat.shiftLeft_eq,
    ← Nat.shiftLeft_add_eq_or_of_lt op.isLt, ← Nat.shiftLeft_add_eq_or_of_lt a8.isLt]
  have := op.isLt
  simp only [Nat.shiftLeft_eq]; omega

@[simp] theorem a8Field_commandWord (op a8 : Byte) (a16 : Half) : a8Field (commandWord op a8 a16) = a8 := by
  apply BitVec.eq_of_toNat_eq
  simp only [a8Field, commandWord, BitVec.extractLsb'_toNat, BitVec.toNat_append]
  rw [← Nat.shiftLeft_add_eq_or_of_lt op.isLt, ← Nat.shiftLeft_add_eq_or_of_lt a8.isLt]
  have := op.isLt; have := a8.isLt
  simp only [Nat.shiftLeft_eq, Nat.shiftRight_eq_div_pow]; omega

@[simp] theorem a16Field_commandWord (op a8 : Byte) (a16 : Half) : a16Field (commandWord op a8 a16) = a16 := by
  apply BitVec.eq_of_toNat_eq
  simp only [a16Field, commandWord, BitVec.extractLsb'_toNat, BitVec.toNat_append]
  rw [← Nat.shiftLeft_add_eq_or_of_lt op.isLt, ← Nat.shiftLeft_add_eq_or_of_lt a8.isLt]
  have := op.isLt; have := a8.isLt; have := a16.isLt
  simp only [Nat.shiftLeft_eq, Nat.shiftRight_eq_div_pow]; omega

/-- A word is its three fields. -/
theorem commandWord_fields (w : Word) : commandWord (opField w) (a8Field w) (a16Field w) = w := by
  apply BitVec.eq_of_toNat_eq
  simp only [opField, a8Field, a16Field, commandWord, BitVec.toNat_append]
  rw [← Nat.shiftLeft_add_eq_or_of_lt (BitVec.isLt _), ← Nat.shiftLeft_add_eq_or_of_lt (BitVec.isLt _)]
  have := w.isLt
  simp only [BitVec.extractLsb'_toNat, Nat.shiftLeft_eq, Nat.shiftRight_eq_div_pow]; omega

theorem opField_toNat (w : Word) : (opField w).toNat = w.toNat % 256 := by
  simp [opField]

/-- The rows of R93 as a function of the three fields: the decoder depends on the word through them only. -/
def decodeFields (op a8 : Byte) (a16 : Half) : Except Reject Instr :=
  match op with
  | 0x01#8 => .ok .crcInit
  | 0x02#8 => .ok (.crcByte a8)
  | 0x10#8 => .ok .lrcReset
  | 0x11#8 => .ok (.lrcPush a8)
  | 0x20#8 => .ok (.tcpEncode a8)
  | 0x21#8 => .ok (.tcpReply a8 a16)
  | 0x22#8 => .ok .mbapParse
  | 0x23#8 => .ok .tcpDecode
  | 0x24#8 => .ok .tcpSplit
  | 0x30#8 => .ok (.rtuEncode a8)
  | 0x31#8 => .ok .rtuRxlen
  | 0x32#8 => .ok .rtuDecode
  | 0x40#8 => .ok (.asciiEncode a8)
  | 0x41#8 => .ok .asciiDecode
  | op => .error (.illegalOpcode op)

theorem decode_eq_decodeFields (w : Word) : decode w = decodeFields (opField w) (a8Field w) (a16Field w) := rfl

/-- What the decoder can answer: the command of an opcode R93 lists, or the rejection of one R95 lists. -/
theorem decode_cases (w : Word) :
    (illegalOpcode (opField w) = true ∧ decode w = .error (.illegalOpcode (opField w))) ∨
    (illegalOpcode (opField w) = false ∧ ∃ i, decode w = .ok i ∧ i.opcode = opField w) := by
  rw [decode_eq_decodeFields]
  generalize opField w = op
  by_cases h : illegalOpcode op = true
  · refine .inl ⟨h, ?_⟩
    unfold decodeFields
    split <;> first | rfl | (exfalso; revert h; decide)
  · refine .inr ⟨by simpa using h, ?_⟩
    have key : ∀ o : Byte, illegalOpcode o ≠ true → o = 0x01 ∨ o = 0x02 ∨ o = 0x10 ∨ o = 0x11 ∨ o = 0x20 ∨ o = 0x21 ∨
      o = 0x22 ∨ o = 0x23 ∨ o = 0x24 ∨ o = 0x30 ∨ o = 0x31 ∨ o = 0x32 ∨ o = 0x40 ∨ o = 0x41 := by decide
    rcases key _ h with h | h | h | h | h | h | h | h | h | h | h | h | h | h <;> subst h <;> exact ⟨_, rfl, rfl⟩

end Sys2Proof
end

