-- ==== Sys2Proof/Laws/Commands.lean ====
section
/-! SUPPORT. Each command as a body and its end, and what each body can answer: everything a command can do, said once. -/

namespace Sys2Proof.Machine

/-- The body of a command: its whole effect, or the error it raises. -/
def body : Instr → State → Except CmdError State
  | .crcInit, s => .ok (({ s with crcAcc := crcInitVal } : State).complete 0x01 .ok 0)
  | .crcByte b, s => .ok (({ s with crcAcc := crcFold s.crcAcc b } : State).complete 0x02 .ok 0)
  | .lrcReset, s => .ok (({ s with lrcSum := 0 } : State).complete 0x10 .ok 0)
  | .lrcPush b, s => .ok (({ s with lrcSum := lrcAdd s.lrcSum b } : State).complete 0x11 .ok 0)
  | .tcpEncode a, s => tcpEncode a s
  | .tcpReply a t, s => tcpReply a t s
  | .mbapParse, s => mbapParse s
  | .tcpDecode, s => tcpDecode s
  | .tcpSplit, s => tcpSplit s
  | .rtuEncode a, s => rtuEncode a s
  | .rtuRxlen, s => rtuRxlen s
  | .rtuDecode, s => rtuDecode s
  | .asciiEncode a, s => asciiEncode a s
  | .asciiDecode, s => asciiDecode s

theorem exec_eq_settle (i : Instr) (s : State) : exec i s = settle i.opcode s (body i s) := by
  cases i <;> rfl

/-- A command ends as its body says, or raises and changes `STATUS` alone. -/
theorem exec_cases {i : Instr} {s t : State} (h : exec i s = .next t) :
    body i s = .ok t ∨ ∃ e, body i s = .error e ∧ t = s.raise i.opcode e :=
  settle_cases (exec_eq_settle i s ▸ h)

/-! ### The MBAP header -/

/-- The header in `RX` (43_tcp_mbap.md R175). -/
def rxHeader (s : State) : Header :=
  { tid := be16Of (s.rx 0) (s.rx 1), pid := be16Of (s.rx 2) (s.rx 3), len := be16Of (s.rx 4) (s.rx 5), unit := s.rx 6 }

theorem mbapHeader_short {s : State} (h : s.rxLen.toNat < 7) : mbapHeader s = .error (.frame .short) := by
  simp [mbapHeader, tcpHdr, h]

theorem mbapHeader_badLength {s : State} (h : 7 ≤ s.rxLen.toNat)
    (hl : (rxHeader s).len.toNat = 0 ∨ 254 < (rxHeader s).len.toNat) : mbapHeader s = .error (.frame .badLength) := by
  unfold mbapHeader
  rw [if_neg (by simp only [tcpHdr]; omega)]
  exact if_pos hl

theorem mbapHeader_ok {s : State} (h : 7 ≤ s.rxLen.toNat) (h1 : 1 ≤ (rxHeader s).len.toNat)
    (h2 : (rxHeader s).len.toNat ≤ 254) : mbapHeader s = .ok (rxHeader s) := by
  unfold mbapHeader
  rw [if_neg (by simp only [tcpHdr]; omega)]
  exact if_neg (by intro hc; rcases hc with hc | hc <;> simp only [rxHeader, mbapLenMax] at * <;> omega)

/-- All `mbap_header` can answer. -/
theorem mbapHeader_cases (s : State) :
    (7 ≤ s.rxLen.toNat ∧ 1 ≤ (rxHeader s).len.toNat ∧ (rxHeader s).len.toNat ≤ 254 ∧ mbapHeader s = .ok (rxHeader s)) ∨
    mbapHeader s = .error (.frame .short) ∨ mbapHeader s = .error (.frame .badLength) := by
  by_cases h : 7 ≤ s.rxLen.toNat
  · by_cases hl : (rxHeader s).len.toNat = 0 ∨ 254 < (rxHeader s).len.toNat
    · exact .inr (.inr (mbapHeader_badLength h hl))
    · exact .inl ⟨h, by omega, by omega, mbapHeader_ok h (by omega) (by omega)⟩
  · exact .inr (.inl (mbapHeader_short (by omega)))

/-! ### What each body answers when it succeeds -/

theorem tcpEncode_ok {a : Byte} {s t : State} (h : tcpEncode a s = .ok t) :
    1 ≤ s.pduLen.toNat ∧ s.pduLen.toNat ≤ 253 ∧
    t = (({ s.putTx (tcpFrame (s.tid + 1) a s.pdu) with tid := s.tid + 1 } : State).latch
      .tcp a (functionCode s.pdu) (s.tid + 1)).complete 0x20 .ok 0 := by
  unfold tcpEncode at h
  rcases checkPdu_cases s with ⟨h1, h2, hc⟩ | hc <;> rw [hc] at h
  · exact ⟨h1, h2, (Except.ok.inj h).symm⟩
  · cases h

theorem tcpReply_ok {a : Byte} {i : Half} {s t : State} (h : tcpReply a i s = .ok t) :
    1 ≤ s.pduLen.toNat ∧ s.pduLen.toNat ≤ 253 ∧ t = (s.putTx (tcpFrame i a s.pdu)).complete 0x21 .ok 0 := by
  unfold tcpReply at h
  rcases checkPdu_cases s with ⟨h1, h2, hc⟩ | hc <;> rw [hc] at h
  · exact ⟨h1, h2, (Except.ok.inj h).symm⟩
  · cases h

/-- MBAP_PARSE is the header check and its end. -/
theorem mbapParse_eq (s : State) : mbapParse s = (mbapHeader s).map fun hd =>
    ({ s with hdr := hd, rxExpect := BitVec.ofNat 10 (6 + hd.len.toNat) } : State).complete 0x22 .ok 0 := by
  unfold mbapParse
  cases mbapHeader s <;> rfl

theorem mbapParse_ok {s t : State} (h : mbapParse s = .ok t) :
    7 ≤ s.rxLen.toNat ∧ 1 ≤ (rxHeader s).len.toNat ∧ (rxHeader s).len.toNat ≤ 254 ∧
    t = ({ s with hdr := rxHeader s, rxExpect := BitVec.ofNat 10 (6 + (rxHeader s).len.toNat) } : State).complete
      0x22 .ok 0 := by
  rw [mbapParse_eq] at h
  rcases mbapHeader_cases s with ⟨h0, h1, h2, hc⟩ | hc | hc <;> rw [hc] at h
  · exact ⟨h0, h1, h2, (Except.ok.inj h).symm⟩
  · cases h
  · cases h

theorem tcpDecode_ok {s t : State} (h : tcpDecode s = .ok t) :
    s.req.mode = .tcp ∧ 2 ≤ (rxHeader s).len.toNat ∧ (rxHeader s).len.toNat ≤ 254 ∧
    s.rxLen.toNat = 6 + (rxHeader s).len.toNat ∧
    classifyAndFinish 0x23 s (s.rxSlice 7 (6 + (rxHeader s).len.toNat)) = .ok t := by
  unfold tcpDecode at h
  split at h
  · cases h
  · next hm =>
    rcases mbapHeader_cases s with ⟨h0, h1, h2, hc⟩ | hc | hc <;> rw [hc] at h
    · simp only [] at h
      split at h
      · cases h
      split at h
      · cases h
      split at h
      · cases h
      split at h
      · cases h
      split at h
      · cases h
      · next h4 h5 h6 h7 h8 =>
        refine ⟨not_not.1 hm, ?_, h2, not_not.1 h4, h⟩
        have : (rxHeader s).len.toNat ≠ 1 := fun e => h8 (BitVec.eq_of_toNat_eq (by simpa using e))
        omega
    · cases h
    · cases h

theorem tcpSplit_ok {s t : State} (h : tcpSplit s = .ok t) :
    2 ≤ (rxHeader s).len.toNat ∧ (rxHeader s).len.toNat ≤ 254 ∧ s.rxLen.toNat = 6 + (rxHeader s).len.toNat ∧
    t = (({ s with hdr := rxHeader s } : State).putPdu (s.rxSlice 7 (6 + (rxHeader s).len.toNat))).complete 0x24 .ok 0 := by
  unfold tcpSplit at h
  rcases mbapHeader_cases s with ⟨h0, h1, h2, hc⟩ | hc | hc <;> rw [hc] at h
  · simp only [] at h
    split at h
    · cases h
    split at h
    · cases h
    · next h4 h8 =>
      refine ⟨?_, h2, not_not.1 h4, (Except.ok.inj h).symm⟩
      have : (rxHeader s).len.toNat ≠ 1 := fun e => h8 (BitVec.eq_of_toNat_eq (by simpa using e))
      omega
  · cases h
  · cases h

/-- A prediction that succeeds is 4 to 256 (44_rtu.md R203, R204). -/
theorem rtuPredict_range {pdu : List Byte} {p : Nat} (h : rtuPredict pdu = .ok p) : 4 ≤ p ∧ p ≤ 256 := by
  unfold rtuPredict at h
  split at h
  · cases h
  · simp only [rtuMin, rtuMax] at h
    split at h
    · cases h
    · have := Except.ok.inj h; omega

/-- The errors of a prediction (44_rtu.md R203). -/
theorem rtuPredict_error {pdu : List Byte} {e : CmdError} (h : rtuPredict pdu = .error e) :
    e = .param .predShort ∨ e = .param .predRange := by
  unfold rtuPredict at h
  split at h
  · exact .inl (Except.error.inj h).symm
  · simp only [] at h
    split at h
    · exact .inr (Except.error.inj h).symm
    · cases h

theorem rtuEncode_ok {a : Byte} {s t : State} (h : rtuEncode a s = .ok t) :
    1 ≤ s.pduLen.toNat ∧ s.pduLen.toNat ≤ 253 ∧ ∃ p, rtuPredict s.pdu = .ok p ∧
    t = (({ s.putTx (rtuFrame a s.pdu) with
      predLen := BitVec.ofNat 10 p
      delayUs := BitVec.ofNat 64 (rtuDelay s.baud.toNat (s.pdu.length + 3 + p)) } : State).latch
        .rtu a (functionCode s.pdu) 0).complete 0x30 .ok 0 := by
  unfold rtuEncode at h
  rcases checkPdu_cases s with ⟨h1, h2, hc⟩ | hc <;> rw [hc] at h
  · simp only [] at h
    cases hp : rtuPredict s.pdu with
    | error e => rw [hp] at h; cases h
    | ok p => rw [hp] at h; exact ⟨h1, h2, p, rfl, (Except.ok.inj h).symm⟩
  · cases h

theorem rtuRxlen_ok {s t : State} (h : rtuRxlen s = .ok t) :
    s.req.mode = .rtu ∧ 4 ≤ s.rxLen.toNat ∧ ∃ e, (e = s.predLen ∧ s.rx 1 = s.req.fc ∨ e = 5) ∧
    t = ({ s with rxExpect := e } : State).complete 0x31 .ok 0 := by
  unfold rtuRxlen at h
  split at h
  · cases h
  split at h
  · cases h
  next hm hl =>
  simp only [rtuMin] at hl
  split at h
  · next hf => exact ⟨not_not.1 hm, by omega, _, .inl ⟨rfl, hf⟩, (Except.ok.inj h).symm⟩
  split at h
  · exact ⟨not_not.1 hm, by omega, _, .inr rfl, (Except.ok.inj h).symm⟩
  · cases h

theorem rtuDecode_ok {s t : State} (h : rtuDecode s = .ok t) :
    s.req.mode = .rtu ∧ 4 ≤ s.rxLen.toNat ∧ s.rxLen.toNat ≤ 256 ∧
    classifyAndFinish 0x32 s (s.rxSlice 1 (s.rxLen.toNat - 2)) = .ok t := by
  unfold rtuDecode at h
  simp only [] at h
  split at h
  · cases h
  split at h
  · cases h
  split at h
  · cases h
  split at h
  · cases h
  next hm hl h3 h4 =>
  simp only [rtuMin, rtuMax] at hl
  exact ⟨not_not.1 hm, by omega, by omega, h⟩

theorem asciiEncode_ok {a : Byte} {s t : State} (h : asciiEncode a s = .ok t) :
    1 ≤ s.pduLen.toNat ∧ s.pduLen.toNat ≤ 253 ∧
    t = ((s.putTx (asciiFrame a s.pdu)).latch .ascii a (functionCode s.pdu) 0).complete 0x40 .ok 0 := by
  unfold asciiEncode at h
  rcases checkPdu_cases s with ⟨h1, h2, hc⟩ | hc <;> rw [hc] at h
  · exact ⟨h1, h2, (Except.ok.inj h).symm⟩
  · cases h

/-- A hex text that decodes has two characters a byte (45_ascii.md R235). -/
theorem unhex_length {cs d : List Byte} (h : unhex cs = some d) : cs.length = 2 * d.length := by
  induction cs using unhex.induct generalizing d with
  | case1 => simp only [unhex, Option.some.injEq] at h; subst h; rfl
  | case2 c => simp [unhex] at h
  | case3 c c' cs hi lo bs _ _ hbs ih =>
    simp only [unhex, *, Option.some.injEq] at h
    subst h
    have := ih ‹_›
    simp only [List.length_cons]; omega
  | case4 c c' cs hn ih => simp only [unhex] at h; cases h

theorem asciiDecode_ok {s t : State} (h : asciiDecode s = .ok t) :
    s.req.mode = .ascii ∧ ∃ rsp : List Byte, rsp.length + 2 ≤ 255 ∧ classifyAndFinish 0x41 s rsp = .ok t := by
  unfold asciiDecode at h
  simp only [] at h
  split at h
  · cases h
  split at h
  · cases h
  split at h
  · cases h
  split at h
  · cases h
  split at h
  · cases h
  next hm hl h3 h4 h5 =>
  refine ⟨not_not.1 hm, ?_⟩
  cases hu : unhex (s.rxSlice 1 (s.rxLen.toNat - 2)) with
  | none => rw [hu] at h; cases h
  | some d =>
    rw [hu] at h
    simp only [asciiDecodeBytes] at h
    split at h
    · cases h
    split at h
    · cases h
    refine ⟨_, ?_, h⟩
    have := unhex_length hu
    simp only [State.rxSlice, length_bytes, asciiMinChars, asciiMinBytes, asciiMaxChars] at this hl
    simp; omega

/-! ### How a body ends -/

/-- An error's cause is one of the class it is raised with (60_exceptions.md R252). -/
def CmdError.proper : CmdError → Prop
  | .param c => c.resClass = some .paramErr
  | .frame c => c.resClass = some .frameErr

theorem mbapHeader_proper {s : State} {e : CmdError} (h : mbapHeader s = .error e) :
    e.proper := by
  rcases mbapHeader_cases s with ⟨-, -, -, hc⟩ | hc | hc <;> rw [hc] at h <;> cases h <;> rfl

theorem checkPdu_proper {s : State} {e : CmdError} (h : checkPdu s = .error e) :
    e.proper := by
  rcases checkPdu_cases s with ⟨-, -, hc⟩ | hc <;> rw [hc] at h <;> cases h
  rfl

theorem classifyAndFinish_proper {op} {s : State} {rsp} {e : CmdError} (h : classifyAndFinish op s rsp = .error e) :
    e.proper := by
  obtain ⟨c, rfl, rfl | rfl | rfl⟩ := classifyAndFinish_error h <;> rfl

/-- Every error a command raises names a cause of its class. -/
theorem body_error {i : Instr} {s : State} {e : CmdError} (h : body i s = .error e) : e.proper := by
  cases i <;> simp only [body] at h
  case crcInit => cases h
  case crcByte => cases h
  case lrcReset => cases h
  case lrcPush => cases h
  case tcpEncode =>
    unfold tcpEncode at h
    split at h
    · next h' => cases h; exact checkPdu_proper h'
    · cases h
  case tcpReply =>
    unfold tcpReply at h
    split at h
    · next h' => cases h; exact checkPdu_proper h'
    · cases h
  case mbapParse =>
    unfold mbapParse at h
    split at h
    · next h' => cases h; exact mbapHeader_proper h'
    · cases h
  case tcpDecode =>
    unfold tcpDecode at h
    split at h
    · cases h; rfl
    split at h
    · next h' => cases h; exact mbapHeader_proper h'
    repeat' (split at h; · cases h; rfl)
    exact classifyAndFinish_proper h
  case tcpSplit =>
    unfold tcpSplit at h
    split at h
    · next h' => cases h; exact mbapHeader_proper h'
    repeat' (split at h; · cases h; rfl)
    cases h
  case rtuEncode =>
    unfold rtuEncode at h
    split at h
    · next h' => cases h; exact checkPdu_proper h'
    split at h
    · next h' => cases h; rcases rtuPredict_error h' with rfl | rfl <;> rfl
    · cases h
  case rtuRxlen =>
    unfold rtuRxlen at h
    split at h
    · cases h; rfl
    split at h
    · cases h; rfl
    split at h
    · cases h
    split at h
    · cases h
    · cases h; rfl
  case rtuDecode =>
    unfold rtuDecode at h
    simp only [] at h
    repeat' (split at h; · cases h; rfl)
    exact classifyAndFinish_proper h
  case asciiEncode =>
    unfold asciiEncode at h
    split at h
    · next h' => cases h; exact checkPdu_proper h'
    · cases h
  case asciiDecode =>
    unfold asciiDecode at h
    simp only [] at h
    repeat' (split at h; · cases h; rfl)
    simp only [asciiDecodeBytes] at h
    split at h; · cases h; rfl
    split at h; · cases h; rfl
    exact classifyAndFinish_proper h

/-- How a command that does not raise ends: `OK`, or a client decode's exception reply of two bytes (40_common.md R111, R118). -/
theorem body_ok {i : Instr} {s t : State} (h : body i s = .ok t) :
    t.status = ⟨.ok, .none, 0, i.opcode⟩ ∨
    ∃ e fc, t = (s.putPdu [fc, e]).complete i.opcode .exception e ∧
      (i = .tcpDecode ∨ i = .rtuDecode ∨ i = .asciiDecode) := by
  have hc : ∀ {op rsp}, classifyAndFinish op s rsp = .ok t →
      t.status = ⟨.ok, .none, 0, op⟩ ∨ ∃ e fc, t = (s.putPdu [fc, e]).complete op .exception e := by
    intro op rsp h
    rcases classifyAndFinish_cases h with ⟨rfl, -⟩ | ⟨e, rfl, -, -, ht⟩
    · exact .inl rfl
    · refine .inr ⟨e, ?_⟩
      cases rsp with
      | nil => simp at ht
      | cons fc d => simp only [List.tail_cons] at ht; subst ht; exact ⟨fc, rfl⟩
  cases i <;> simp only [body] at h
  case crcInit => cases h; exact .inl rfl
  case crcByte => cases h; exact .inl rfl
  case lrcReset => cases h; exact .inl rfl
  case lrcPush => cases h; exact .inl rfl
  case tcpEncode => obtain ⟨-, -, rfl⟩ := tcpEncode_ok h; exact .inl rfl
  case tcpReply => obtain ⟨-, -, rfl⟩ := tcpReply_ok h; exact .inl rfl
  case mbapParse => obtain ⟨-, -, -, rfl⟩ := mbapParse_ok h; exact .inl rfl
  case tcpDecode =>
    obtain ⟨-, -, -, -, h⟩ := tcpDecode_ok h
    exact (hc h).imp id fun ⟨e, fc, h⟩ => ⟨e, fc, h, by simp⟩
  case tcpSplit => obtain ⟨-, -, -, rfl⟩ := tcpSplit_ok h; exact .inl rfl
  case rtuEncode => obtain ⟨-, -, p, -, rfl⟩ := rtuEncode_ok h; exact .inl rfl
  case rtuRxlen => obtain ⟨-, -, e, -, rfl⟩ := rtuRxlen_ok h; exact .inl rfl
  case rtuDecode =>
    obtain ⟨-, -, -, h⟩ := rtuDecode_ok h
    exact (hc h).imp id fun ⟨e, fc, h⟩ => ⟨e, fc, h, by simp⟩
  case asciiEncode => obtain ⟨-, -, rfl⟩ := asciiEncode_ok h; exact .inl rfl
  case asciiDecode =>
    obtain ⟨-, rsp, -, h⟩ := asciiDecode_ok h
    exact (hc h).imp id fun ⟨e, fc, h⟩ => ⟨e, fc, h, by simp⟩

/-- No command reads `STATUS` (10_state.md R48). -/
theorem body_status (i : Instr) (s : State) (st : Status) : body i { s with status := st } = body i s := by
  have hb : ∀ a n, State.bytes { s with status := st } a n = s.bytes a n := bytes_same rfl rfl
  have hcp : checkPdu { s with status := st } = checkPdu s := by
    simp only [checkPdu, State.pdu, hb]
  have hmb : mbapHeader { s with status := st } = mbapHeader s := rfl
  have hcf : ∀ op rsp, classifyAndFinish op { s with status := st } rsp = classifyAndFinish op s rsp := by
    intro op rsp
    simp only [classifyAndFinish, finishDecode]
    split
    · rfl
    · next v h => cases v <;> rfl
  cases i <;> simp only [body]
  all_goals try rfl
  · simp only [tcpEncode, hcp]; rfl
  · simp only [tcpReply, hcp]; rfl
  · simp only [tcpDecode, hmb, hcf, State.rxSlice, hb]
  · simp only [tcpSplit, hmb, State.rxSlice, hb]; rfl
  · simp only [rtuEncode, hcp]; rfl
  · simp only [rtuDecode, hcf, State.rxSlice, hb]; rfl
  · simp only [asciiEncode, hcp]; rfl
  · simp only [asciiDecode, asciiDecodeBytes, hcf, State.rxSlice, hb]; rfl

/-- The size check of every encoder comes first (40_common.md R114). -/
theorem body_encoder_size {i : Instr} {s : State} (hi : i.opcode ∈ ([0x20, 0x21, 0x30, 0x40] : List Byte))
    (h : ¬ (1 ≤ s.pduLen.toNat ∧ s.pduLen.toNat ≤ 253)) : body i s = .error (.param .pduSize) := by
  have hc := checkPdu_error h
  cases i <;> simp [Instr.opcode] at hi <;> simp [body, tcpEncode, tcpReply, rtuEncode, asciiEncode, hc]

/-- The delay of any two RTU frames fits 33 bits (44_rtu.md R205). -/
theorem rtuDelay_lt (baud n : Nat) (h : n ≤ 512) : rtuDelay baud n < 2 ^ 33 := by
  unfold rtuDelay
  simp only [baudThreshold, charNum, frameNum, charFallback, frameFallback]
  split
  · have h1 : 15000000 / baud ≤ 15000000 := Nat.div_le_self _ _
    have h2 : 35000000 / baud ≤ 35000000 := Nat.div_le_self _ _
    have h3 := Nat.mul_le_mul h1 h
    omega
  · omega

/-! ### The accumulators -/

/-- What a command does to `CRC_ACC` (41_crc16.md R132 to R136). -/
def crcEff (c : Half) : Instr → Half
  | .crcInit => 0xFFFF
  | .crcByte b => crcFold c b
  | _ => c

/-- What a command does to `LRC_SUM` (42_lrc.md R152 to R155). -/
def lrcEff (c : Byte) : Instr → Byte
  | .lrcReset => 0
  | .lrcPush b => lrcAdd c b
  | _ => c

/-- The accumulators after a command. -/
theorem exec_acc {i : Instr} {s t : State} (h : exec i s = .next t) :
    t.crcAcc = crcEff s.crcAcc i ∧ t.lrcSum = lrcEff s.lrcSum i := by
  rcases exec_cases h with hb | ⟨e, hb, rfl⟩
  · cases i <;> simp only [body] at hb
    case crcInit => cases hb; simp [crcEff, lrcEff]
    case crcByte => cases hb; simp [crcEff, lrcEff]
    case lrcReset => cases hb; simp [crcEff, lrcEff]
    case lrcPush => cases hb; simp [crcEff, lrcEff]
    case tcpEncode => obtain ⟨-, -, rfl⟩ := tcpEncode_ok hb; simp [crcEff, lrcEff]
    case tcpReply => obtain ⟨-, -, rfl⟩ := tcpReply_ok hb; simp [crcEff, lrcEff]
    case mbapParse => obtain ⟨-, -, -, rfl⟩ := mbapParse_ok hb; simp [crcEff, lrcEff]
    case tcpDecode =>
      obtain ⟨-, -, -, -, hc⟩ := tcpDecode_ok hb
      rcases classifyAndFinish_cases hc with ⟨rfl, -⟩ | ⟨e, rfl, -⟩ <;> simp [crcEff, lrcEff]
    case tcpSplit => obtain ⟨-, -, -, rfl⟩ := tcpSplit_ok hb; simp [crcEff, lrcEff]
    case rtuEncode => obtain ⟨-, -, p, -, rfl⟩ := rtuEncode_ok hb; simp [crcEff, lrcEff]
    case rtuRxlen => obtain ⟨-, -, e, -, rfl⟩ := rtuRxlen_ok hb; simp [crcEff, lrcEff]
    case rtuDecode =>
      obtain ⟨-, -, -, hc⟩ := rtuDecode_ok hb
      rcases classifyAndFinish_cases hc with ⟨rfl, -⟩ | ⟨e, rfl, -⟩ <;> simp [crcEff, lrcEff]
    case asciiEncode => obtain ⟨-, -, rfl⟩ := asciiEncode_ok hb; simp [crcEff, lrcEff]
    case asciiDecode =>
      obtain ⟨-, rsp, -, hc⟩ := asciiDecode_ok hb
      rcases classifyAndFinish_cases hc with ⟨rfl, -⟩ | ⟨e, rfl, -⟩ <;> simp [crcEff, lrcEff]
  · cases i <;> simp only [body] at hb <;> first | cases hb | simp [crcEff, lrcEff]

end Sys2Proof.Machine
end

