-- ==== Sys2Proof/Laws/Step.lean ====
section
/-! SUPPORT. The step: what serving each event does, runs of commands, and the ends of the decoders in the terms of the claims. -/

namespace Sys2Proof.Machine

/-! ### One step -/

theorem step_idle {s : State} (h : s.pending = []) : step s = .next s := by simp [step, h]

theorem step_serve {s : State} {e : Event} {rest : List Event} (h : s.pending = e :: rest) :
    step s = serve e { s with pending := rest } := by simp [step, h]

theorem step_command {s : State} {w : Word} {rest : List Event} {i : Instr} (h : s.pending = .write32 0x000 w :: rest)
    (hi : decode w = .ok i) : step s = exec i { s with pending := rest, response := .written } := by
  rw [step_serve h]
  unfold serve
  dsimp only
  rw [if_pos (show (0x000 : Addr) = Reg.offset .cmd from rfl), runCommand, hi]; rfl

theorem step_illegal {s : State} {w : Word} {rest : List Event} (h : s.pending = .write32 0x000 w :: rest)
    (hi : illegalOpcode (opField w) = true) :
    step s = .next ({ s with pending := rest, response := .written } |>.illegal (opField w)) := by
  rw [step_serve h]
  unfold serve
  dsimp only
  rw [if_pos (show (0x000 : Addr) = Reg.offset .cmd from rfl), runCommand]
  rcases decode_cases w with ⟨-, hd⟩ | ⟨hd, -⟩
  · rw [hd]; rfl
  · rw [hi] at hd; cases hd

/-- Every command ends in a next state (40_common.md R110). -/
theorem exec_total (i : Instr) (s : State) : ∃ t, exec i s = .next t := by
  rw [exec_eq_settle]
  cases body i s with
  | ok t => exact ⟨t, rfl⟩
  | error e => exact ⟨_, rfl⟩

theorem runCommand_total (w : Word) (s : State) : ∃ t, runCommand w s = .next t := by
  unfold runCommand
  rcases decode_cases w with ⟨-, hd⟩ | ⟨-, i, hd, -⟩ <;> rw [hd]
  · exact ⟨_, rfl⟩
  · exact exec_total i s

/-- No command writes the model's own fields, `BAUD` or `RX_LEN`. -/
theorem exec_keeps {i : Instr} {s t : State} (h : exec i s = .next t) :
    t.pending = s.pending ∧ t.response = s.response ∧ t.resets = s.resets ∧ t.baud = s.baud ∧ t.rxLen = s.rxLen := by
  rcases exec_cases h with hb | ⟨e, -, rfl⟩
  · cases i <;> simp only [body] at hb
    case crcInit => cases hb; simp
    case crcByte => cases hb; simp
    case lrcReset => cases hb; simp
    case lrcPush => cases hb; simp
    case tcpEncode => obtain ⟨-, -, rfl⟩ := tcpEncode_ok hb; simp
    case tcpReply => obtain ⟨-, -, rfl⟩ := tcpReply_ok hb; simp
    case mbapParse => obtain ⟨-, -, -, rfl⟩ := mbapParse_ok hb; simp
    case tcpDecode =>
      obtain ⟨-, -, -, -, hc⟩ := tcpDecode_ok hb
      rcases classifyAndFinish_cases hc with ⟨rfl, -⟩ | ⟨e, rfl, -⟩ <;> simp
    case tcpSplit => obtain ⟨-, -, -, rfl⟩ := tcpSplit_ok hb; simp
    case rtuEncode => obtain ⟨-, -, p, -, rfl⟩ := rtuEncode_ok hb; simp
    case rtuRxlen => obtain ⟨-, -, e, -, rfl⟩ := rtuRxlen_ok hb; simp
    case rtuDecode =>
      obtain ⟨-, -, -, hc⟩ := rtuDecode_ok hb
      rcases classifyAndFinish_cases hc with ⟨rfl, -⟩ | ⟨e, rfl, -⟩ <;> simp
    case asciiEncode => obtain ⟨-, -, rfl⟩ := asciiEncode_ok hb; simp
    case asciiDecode =>
      obtain ⟨-, rsp, -, hc⟩ := asciiDecode_ok hb
      rcases classifyAndFinish_cases hc with ⟨rfl, -⟩ | ⟨e, rfl, -⟩ <;> simp
  · simp

/-! ### The ends of encoders and decoders -/

/-- What `putTx` leaves and puts. -/
theorem putTx_frame {s t : State} {f : List Byte} (hm : t.mem = (s.putTx f).mem) (hr : t.resets = s.resets) :
    t.bytes 0x400 f.length = f ∧ SameOutside 0x400 f.length s t :=
  ⟨bytes_writeRun_same hm, fun _ hx => byteAt_writeRun_outside hm hr hx⟩

/-- What `putPdu` leaves and puts. -/
theorem putPdu_frame {s t : State} {p : List Byte} (hm : t.mem = (s.putPdu p).mem) (hr : t.resets = s.resets) :
    t.bytes 0x100 p.length = p ∧ SameOutside 0x100 p.length s t :=
  ⟨bytes_writeRun_same hm, fun _ hx => byteAt_writeRun_outside hm hr hx⟩

theorem decodesTo_of_exec {i : Instr} {s : State} {rsp : List Byte} {r : Res} {e : Byte}
    (h : exec i s = .next ((s.putPdu rsp).complete i.opcode r e)) : DecodesTo i s rsp r e :=
  ⟨_, h, rfl, putPdu_frame rfl rfl⟩

theorem failsWith_of_body {i : Instr} {s : State} {c : Cause} (h : body i s = .error (.frame c)) :
    FailsWith i s .frameErr c := by
  rw [FailsWith, exec_eq_settle, h]; rfl

theorem failsWith_of_body_param {i : Instr} {s : State} {c : Cause} (h : body i s = .error (.param c)) :
    FailsWith i s .paramErr c := by
  rw [FailsWith, exec_eq_settle, h]; rfl

/-- The last check and the end of every client decode. -/
theorem replyOutcome_of_body {i : Instr} {s : State} {rsp : List Byte} (hr : rsp ≠ [])
    (h : body i s = classifyAndFinish i.opcode s rsp) : ReplyOutcome i s rsp := by
  obtain ⟨fc, data, rfl⟩ := List.exists_cons_of_ne_nil hr
  have hc : ∀ c, classify s.req.fc (fc :: data) = .error (.frame c) → FailsWith i s .frameErr c := fun c hc => by
    refine failsWith_of_body ?_; rw [h, classifyAndFinish, hc]
  have hok : ∀ v, classify s.req.fc (fc :: data) = .ok v →
      exec i s = .next (finishDecode i.opcode s (fc :: data) v) := fun v hv => by
    rw [exec_eq_settle, h, classifyAndFinish, hv]; rfl
  refine ⟨⟨fun h1 h2 => hc _ ?_, fun h1 h2 => hc _ ?_, fun h1 h2 h3 => hc _ ?_⟩, fun h1 => ?_, fun e h1 => ?_⟩
  · simp only [List.head?_cons, ne_eq, Option.some.injEq] at h1 h2
    replace h2 : ¬ fc = s.req.fc ||| 128#8 := h2
    simp [classify, functionCode, excFlag, h1, h2]
  · simp only [List.head?_cons, Option.some.injEq] at h1
    have hd : data = [] := by simpa using h2
    rcases h1 with h1 | h1 <;> simp [classify, functionCode, excFlag, h1, hd]
  · simp only [List.head?_cons, Option.some.injEq] at h1
    simp only [List.length_cons] at h3
    have h4 : data.length ≠ 0 := by omega
    have h5 : data.length ≠ 1 := by omega
    have h6 : data ≠ [] := fun e => h4 (by simp [e])
    replace h2 : ¬ s.req.fc ||| 128#8 = s.req.fc := h2
    simp [classify, functionCode, excFlag, h1, h2, h5, h6]
  · obtain ⟨h1, h2⟩ := h1
    simp only [List.head?_cons, Option.some.injEq, List.length_cons] at h1 h2
    have h6 : data ≠ [] := fun e => by simp [e] at h2
    exact decodesTo_of_exec (hok .normal (by simp [classify, functionCode, h1, h6]))
  · obtain ⟨h1, h2⟩ := h1
    obtain ⟨rfl, rfl⟩ := List.cons.inj h1
    replace h2 : ¬ s.req.fc ||| 128#8 = s.req.fc := h2
    exact decodesTo_of_exec (hok (.exception e) (by simp [classify, functionCode, excFlag, h2]))

/-! ### Runs -/

theorem run_succ (M : Host.Core) (k : Nat) (s t : M.State) (h : M.step s = .next t) : M.run (k+1) s = M.run k t := by
  rw [Host.Core.run, h]

/-- A run of commands: what it leaves in the accumulators. -/
theorem run_commands (cs : List Instr) : ∀ (s : State) (rest : List Event), s.pending = cs.map Prog.command ++ rest →
    ∃ t : State, core.run cs.length s = .next t ∧ t.crcAcc = cs.foldl crcEff s.crcAcc ∧
      t.lrcSum = cs.foldl lrcEff s.lrcSum ∧ t.pending = rest := by
  induction cs with
  | nil => intro s rest h; exact ⟨s, rfl, rfl, rfl, h⟩
  | cons i cs ih =>
    intro s rest h
    have hd : decode (encode i) = .ok i := by cases i <;> simp [decode_eq_decodeFields, encode, decodeFields]
    have hst := step_command (s := s) (w := encode i) (i := i) (rest := cs.map Prog.command ++ rest) h hd
    obtain ⟨t, ht⟩ := exec_total i { s with pending := cs.map Prog.command ++ rest, response := .written }
    obtain ⟨h1, h2⟩ := exec_acc ht
    obtain ⟨h3, -⟩ := exec_keeps ht
    obtain ⟨u, hu, hc, hl, hp⟩ := ih t rest h3
    refine ⟨u, ?_, ?_, ?_, hp⟩
    · have : core.step s = .next t := hst.trans ht
      exact (run_succ core _ _ _ this).trans hu
    · rw [hc, h1]; rfl
    · rw [hl, h2]; rfl

/-! ### The invariant -/

/-- The invariant speaks of these fields only. -/
theorem inv_of_same {s t : State} (hs : s.Inv) (h : t.status = s.status) (hm : t.mem.wf) (h1 : t.req = s.req) (h2 : t.tid = s.tid)
    (h3 : t.predLen = s.predLen) (h4 : t.txLen = s.txLen) (h5 : t.rxExpect = s.rxExpect) (h6 : t.delayUs = s.delayUs) (h7 : t.hdr = s.hdr) : t.Inv := by
  obtain ⟨a, b, c, d, e, f, g, h', i, j, k, l, m, n⟩ := hs
  exact {
    memWf := hm
    causeClass := by rw [h]; exact b
    excCode := by rw [h]; exact c
    excOp := by rw [h]; exact d
    illegalOp := by rw [h]; exact e
    noRequest := by rw [h1]; exact f
    tcpTid := by rw [h1, h2]; exact g
    serialTid := by rw [h1]; exact h'
    predLen := by rw [h3]; exact i
    rtuPredLen := by rw [h1, h3]; exact j
    txLen := by rw [h4]; exact k
    rxExpect := by rw [h5]; exact l
    delayUs := by rw [h6]; exact m
    hdrLen := by rw [h7]; exact n }

end Sys2Proof.Machine
end

