-- ==== Sys2Proof/Laws/Decoders.lean ====
section
/-! SUPPORT. The receive side: the header in `RX`, a received frame's bytes, and each decoder's body on a frame of its format. -/

namespace Sys2Proof.Machine

/-! ### The header -/

theorem rxHeader_len (s : State) : (rxHeader s).len.toNat = s.mbapLen := by simp [rxHeader, State.mbapLen]
theorem rxHeader_eq (s : State) : rxHeader s =
    ⟨BitVec.ofNat 16 s.mbapTid, BitVec.ofNat 16 s.mbapPid, BitVec.ofNat 16 s.mbapLen, s.rx 6⟩ := by
  simp [rxHeader, State.mbapTid, State.mbapPid, State.mbapLen, be16Of_eq_ofNat]
theorem mbapTid_eq (s : State) : s.mbapTid = (rxHeader s).tid.toNat := by simp [rxHeader, State.mbapTid]
theorem mbapPid_eq (s : State) : s.mbapPid = (rxHeader s).pid.toNat := by simp [rxHeader, State.mbapPid]
theorem mbapLen_lt (s : State) : s.mbapLen < 65536 := by rw [← rxHeader_len]; exact BitVec.isLt _

/-! ### Received frames -/

theorem received_byte {u : State} {f : List Byte} (h : u.Received f) {i : Nat} (hi : i < f.length) :
    u.byteAt (0x800 + i) = f[i] := by
  obtain ⟨h1, h2⟩ := h
  rw [State.rxFrame, h1] at h2
  exact (bytes_eq_iff _ _ _).1 h2 i hi

theorem received_bytes {u : State} {f pre mid post : List Byte} (h : u.Received f) (hf : f = pre ++ mid ++ post) :
    u.bytes (0x800 + pre.length) mid.length = mid := by
  rw [bytes_eq_iff]
  intro i hi
  have : pre.length + i < f.length := by subst hf; simp; omega
  have hb := received_byte h this
  rw [← Nat.add_assoc] at hb
  rw [hb]
  subst hf
  simp [hi]

/-- The end of a decode of a normal reply (40_common.md R118). -/
theorem end_normal {i : Instr} {u : State} {rsp : List Byte} (hl : rsp.length ≤ 253)
    (h : body i u = classifyAndFinish i.opcode u rsp) (h1 : rsp.headD 0 = u.req.fc) (h2 : rsp.tail ≠ []) :
    ∃ v, exec i u = .next v ∧ v.status.res = .ok ∧ v.pdu = rsp := by
  refine ⟨(u.putPdu rsp).complete i.opcode .ok 0, ?_, rfl, ?_⟩
  · rw [exec_eq_settle, h, classifyAndFinish]
    have : classify u.req.fc rsp = .ok .normal := by
      rw [classify]; exact (if_pos h1).trans (if_neg (fun e => h2 (List.length_eq_zero_iff.1 e)))
    rw [this]; rfl
  · have := (putPdu_frame (s := u) (t := (u.putPdu rsp).complete i.opcode .ok 0) (p := rsp) rfl rfl).1
    simp only [State.pdu, complete_pduLen, putPdu_pduLen, BitVec.toNat_ofNat]
    rw [Nat.mod_eq_of_lt (by omega)]; exact this

/-- The end of a decode of an exception reply (R118). -/
theorem end_exc {i : Instr} {u : State} {fc e : Byte} (h : body i u = classifyAndFinish i.opcode u [fc, e])
    (h1 : fc = u.req.fc ||| 0x80) (h2 : u.req.fc.toNat < 0x80) :
    ∃ v, exec i u = .next v ∧ v.status.res = .exception ∧ v.status.excCode = e ∧ v.pdu = [fc, e] := by
  refine ⟨(u.putPdu [fc, e]).complete i.opcode .exception e, ?_, rfl, rfl, ?_⟩
  · rw [exec_eq_settle, h, classifyAndFinish]
    have hne : fc ≠ u.req.fc := by
      rw [h1]; revert h2; generalize u.req.fc = x; revert x; decide
    have : classify u.req.fc [fc, e] = .ok (.exception e) := by
      rw [classify]; exact (if_neg hne).trans ((if_pos h1).trans rfl)
    rw [this]; rfl
  · have := (putPdu_frame (s := u) (t := (u.putPdu [fc, e]).complete i.opcode .exception e) (p := [fc, e]) rfl rfl).1
    simp only [State.pdu, complete_pduLen, putPdu_pduLen, BitVec.toNat_ofNat]
    rw [Nat.mod_eq_of_lt (by simp)]; exact this

theorem ok_of_res {i : Instr} {s t : State} (h : exec i s = .next t) (hr : t.status.res = .ok) : body i s = .ok t := by
  rcases exec_cases h with hb | ⟨e, hb, rfl⟩
  · exact hb
  · cases e <;> simp [State.raise] at hr

/-- TCP_DECODE on a frame of its own format that answers the request. -/
theorem tcp_body {u : State} {tid : Half} {unit : Byte} {rsp : List Byte} (hr : u.Received (tcpFrame tid unit rsp))
    (h1 : 1 ≤ rsp.length) (h2 : rsp.length ≤ 253) (hm : u.req.mode = .tcp) (ht : tid = u.req.tid)
    (hs : unit = u.req.slave) : body .tcpDecode u = classifyAndFinish 0x23 u rsp := by
  have hl : (tcpFrame tid unit rsp).length = 7 + rsp.length := by simp [tcpFrame]; omega
  have hx : u.rxLen.toNat = 7 + rsp.length := by rw [hr.1, hl]
  have hb : ∀ i (hi : i < (tcpFrame tid unit rsp).length), u.rx i = (tcpFrame tid unit rsp)[i] := fun i hi => received_byte hr hi
  have hh : rxHeader u = ⟨tid, 0, BitVec.ofNat 16 (1 + rsp.length), unit⟩ := by
    simp only [rxHeader, hb 0 (by omega), hb 1 (by omega), hb 2 (by omega), hb 3 (by omega), hb 4 (by omega), hb 5 (by omega), hb 6 (by omega)]
    simp only [tcpFrame, be16, List.cons_append, List.nil_append, List.getElem_cons_zero, List.getElem_cons_succ, be16Of_be16]
    congr 1
  have hlen : (rxHeader u).len.toNat = 1 + rsp.length := by rw [hh]; simp; omega
  have hk := mbapHeader_ok (s := u) (by omega) (by omega) (by omega)
  simp only [body, tcpDecode, hk]
  rw [if_neg (not_not.2 hm), if_neg (by rw [hx, hlen]; omega), if_neg (by rw [hh]; simpa using ht), if_neg (by rw [hh]; exact not_not.2 rfl), if_neg (by rw [hh]; simpa using hs),
    if_neg (fun hc => by have := congrArg BitVec.toNat hc; rw [hlen] at this; change _ = 1 at this; omega)]
  have := received_bytes (pre := be16 tid ++ [0, 0] ++ be16 (BitVec.ofNat 16 (1 + rsp.length)) ++ [unit]) (mid := rsp) (post := []) hr (by simp [tcpFrame])
  rw [State.rxSlice, hlen, show 6 + (1 + rsp.length) - 7 = rsp.length by omega]
  rw [show rxBase + 7 = 0x800 + (be16 tid ++ [0, 0] ++ be16 (BitVec.ofNat 16 (1 + rsp.length)) ++ [unit]).length by simp, this]; rfl

/-- RTU_DECODE on a frame of its own format that answers the request. -/
theorem rtu_body {u : State} {slave : Byte} {rsp : List Byte} (hr : u.Received (rtuFrame slave rsp))
    (h1 : 1 ≤ rsp.length) (h2 : rsp.length ≤ 253) (hm : u.req.mode = .rtu) (hs : slave = u.req.slave) : body .rtuDecode u = classifyAndFinish 0x32 u rsp := by
  have hl : (rtuFrame slave rsp).length = rsp.length + 3 := by simp [rtuFrame]
  have hx : u.rxLen.toNat = rsp.length + 3 := by rw [hr.1, hl]
  have hb : ∀ i (hi : i < (rtuFrame slave rsp).length), u.rx i = (rtuFrame slave rsp)[i] := fun i hi => received_byte hr hi
  simp only [body, rtuDecode, hx]
  rw [if_neg (not_not.2 hm), if_neg (by simp only [rtuMin, rtuMax]; omega)]
  have e1 := received_bytes (pre := []) (mid := slave :: rsp) (post := le16 (crc16 (slave :: rsp))) hr (by simp [rtuFrame])
  have e2 := received_bytes (pre := [slave]) (mid := rsp) (post := le16 (crc16 (slave :: rsp))) hr (by simp [rtuFrame])
  have e3 : u.rxSlice 0 (rsp.length + 3 - 2) = slave :: rsp := by
    rw [State.rxSlice]; exact e1
  have e4 : u.rxSlice 1 (rsp.length + 3 - 2) = rsp := by
    rw [State.rxSlice]; exact e2
  have e5 : u.rx (rsp.length + 3 - 2) = (crc16 (slave :: rsp)).extractLsb' 0 8 := by
    rw [hb _ (by omega)]
    simp only [rtuFrame, le16]
    rw [List.getElem_append_right (by simp)]
    simp
  have e6 : u.rx (rsp.length + 3 - 1) = (crc16 (slave :: rsp)).extractLsb' 8 8 := by
    rw [hb _ (by omega)]
    simp only [rtuFrame, le16]
    rw [List.getElem_append_right (by simp)]
    simp [show rsp.length + 2 - (rsp.length + 1) = 1 by omega]
  rw [e3, e4, e5, e6, le16Of_le16, if_neg (by simp), hb 0 (by omega)]
  rw [show (rtuFrame slave rsp)[0] = slave from rfl, if_neg (not_not.2 hs)]; rfl

/-! ### ASCII -/

/-- A hex text that decodes is the text of the decoded bytes (45_ascii.md R235). -/
theorem hexTextIs_of_unhex {cs d : List Byte} (h : unhex cs = some d) : HexTextIs cs d := by
  refine ⟨unhex_length h, ?_⟩
  induction cs using unhex.induct generalizing d with
  | case1 => simp only [unhex, Option.some.injEq] at h; subst h; simp
  | case2 c => simp [unhex] at h
  | case3 c c' cs hi lo bs hbs h2 h1 ih =>
    simp only [unhex, h1, h2, hbs, Option.some.injEq] at h
    subst h
    intro j hj
    cases j with
    | zero =>
      refine ⟨hi, lo, by simpa using h1, by simpa using h2, ?_⟩
      simp only [List.getD_cons_zero, BitVec.toNat_append]
      rw [← Nat.shiftLeft_add_eq_or_of_lt lo.isLt, Nat.shiftLeft_eq]
    | succ j =>
      obtain ⟨h', l', e1, e2, e3⟩ := ih hbs j (by simpa using hj)
      refine ⟨h', l', ?_, ?_, ?_⟩
      · rw [show 2 * (j + 1) = 2 * j + 1 + 1 by omega]; simpa using e1
      · rw [show 2 * (j + 1) + 1 = 2 * j + 1 + 1 + 1 by omega]; simpa using e2
      · simpa using e3
  | case4 c c' cs hn ih => simp only [unhex] at h; cases h

theorem lower_digit : ∀ v : BitVec 4, nib (if 0x41 ≤ (hexDigit v).toNat ∧ (hexDigit v).toNat ≤ 0x46 then hexDigit v + 0x20 else hexDigit v) = some v := by decide

theorem unhex_lower (p : List Byte) : unhex (lowerHex (hex p)) = some p := by
  induction p with
  | nil => rfl
  | cons b p ih =>
    unfold lowerHex at ih
    simp only [lowerHex, hex, List.map_cons, unhex, lower_digit, ih, byte_nibbles]

/-- ASCII_DECODE on a frame of its own format that answers the request, whatever the letter case of its text. -/
theorem ascii_body {u : State} {slave : Byte} {rsp txt : List Byte} (hr : u.Received ([0x3A] ++ txt ++ [0x0D, 0x0A]))
    (ht : unhex txt = some (slave :: rsp ++ [lrc (slave :: rsp)])) (h1 : 1 ≤ rsp.length) (h2 : rsp.length ≤ 253)
    (hm : u.req.mode = .ascii) (hs : slave = u.req.slave) : body .asciiDecode u = classifyAndFinish 0x41 u rsp := by
  have htl := unhex_length ht
  simp only [List.length_append, List.length_cons, List.length_nil] at htl
  have hl : ([0x3A] ++ txt ++ [0x0D, 0x0A] : List Byte).length = txt.length + 3 := by simp
  have hx : u.rxLen.toNat = txt.length + 3 := by rw [hr.1, hl]
  have hb : ∀ i (hi : i < ([0x3A] ++ txt ++ [0x0D, 0x0A] : List Byte).length), u.rx i = ([0x3A] ++ txt ++ [0x0D, 0x0A] : List Byte)[i] := fun i hi => received_byte hr hi
  simp only [body, asciiDecode, hx]
  have e2 := received_bytes (pre := [0x3A]) (mid := txt) (post := [0x0D, 0x0A]) hr (by simp)
  have e4 : u.rxSlice 1 (txt.length + 3 - 2) = txt := by rw [State.rxSlice]; exact e2
  have e5 : u.rx (txt.length + 3 - 2) = 0x0D := by
    rw [hb _ (by omega)]
    rw [List.getElem_append_right (by simp)]
    simp
  have e6 : u.rx (txt.length + 3 - 1) = 0x0A := by
    rw [hb _ (by omega)]
    rw [List.getElem_append_right (by simp)]
    simp [show txt.length + 2 - (txt.length + 1) = 1 by omega]
  rw [if_neg (not_not.2 hm), if_neg (by simp only [asciiMinChars, asciiMinBytes, asciiMaxChars]; omega), hb 0 (by omega), if_neg (by simp [charColon]), e5, e6,
    if_neg (by simp [charCr, charLf]), if_neg (by omega), e4, ht]
  simp only [asciiDecodeBytes]
  have e1 : List.take ((slave :: rsp ++ [lrc (slave :: rsp)]).length - 1) (slave :: rsp ++ [lrc (slave :: rsp)]) = slave :: rsp := by simp
  have e2 : (slave :: rsp ++ [lrc (slave :: rsp)]).getD ((slave :: rsp ++ [lrc (slave :: rsp)]).length - 1) 0 = lrc (slave :: rsp) := by simp
  rw [e1, e2, if_neg (by simp), List.headD_cons, if_neg (not_not.2 hs)]; rfl

end Sys2Proof.Machine
end

