-- ==== Sys2Proof/Laws/HostProgram.lean ====
section
/-! SUPPORT. The host's writes, one step and runs of them (30_encoding.md R97, R98). -/

namespace Sys2Proof.Machine

/-- One byte write to the PDU or RX buffer. -/
theorem writeByte_step {s : State} {a : Nat} {b : Byte} {rest : List Event}
    (ha : 0x100 ≤ a ∧ a ≤ 0x1FC ∨ 0x800 ≤ a ∧ a ≤ 0xA00) (h : s.pending = Prog.w8 (BitVec.ofNat 12 a) b :: rest) :
    step s = .next { s with pending := rest, response := .written, mem := s.mem.write a b } := by
  rw [step_serve h]
  have hn : (BitVec.ofNat 12 a).toNat = a := by simp; omega
  simp only [Prog.w8, serve]
  rw [if_pos ((legal8_iff _).2 (by rw [hn]; omega))]
  simp only [State.busWrite8, hn, State.writeWindowByte, State.answer]
  rcases region_cases a with ⟨h, h'⟩ | ⟨h, h'⟩ | ⟨h, h'⟩ | ⟨h, h'⟩ | ⟨h, h'⟩ | ⟨h, h'⟩ <;> (try omega) <;> rw [h]

/-- A run of byte writes at rising offsets in the PDU or RX buffer. -/
theorem writeBytes_run (bs : List Byte) : ∀ (s : State) (a : Nat) (rest : List Event),
    (0x100 ≤ a ∧ a + bs.length ≤ 0x1FD ∨ 0x800 ≤ a ∧ a + bs.length ≤ 0xA01) → s.pending = Prog.writeBytes a bs ++ rest →
    ∀ k, ∃ t, core.run (bs.length + k) s = core.run k t ∧
      t = { s with pending := rest, response := t.response, mem := s.mem.writeRun a bs } := by
  induction bs with
  | nil => intro s a rest _ h k; exact ⟨s, by simp, by simp only [Prog.writeBytes, List.nil_append] at h; rw [← h]; rfl⟩
  | cons b bs ih =>
    intro s a rest ha h k
    simp only [List.length_cons] at ha
    have hs := writeByte_step (s := s) (a := a) (b := b) (rest := Prog.writeBytes (a + 1) bs ++ rest) (by omega) h
    obtain ⟨t, h1, h2⟩ := ih { s with pending := Prog.writeBytes (a + 1) bs ++ rest, response := .written, mem := s.mem.write a b } (a + 1) rest (by omega) rfl k
    refine ⟨t, ?_, h2⟩
    rw [List.length_cons, show bs.length + 1 + k = (bs.length + k) + 1 by omega]
    exact (run_succ core _ _ _ hs).trans h1

/-- One write to a register other than `CMD`. -/
theorem writeReg_step {s : State} {r : Reg} {v : Word} {rest : List Event} (hr : r ≠ .cmd)
    (h : s.pending = Prog.w32 r v :: rest) : step s = .next ((State.writeReg { s with pending := rest } r v).answer .written) := by
  rw [step_serve h]
  simp only [Prog.w32, serve]
  have h1 : r.offset ≠ Reg.offset .cmd := by cases r <;> first | exact absurd rfl hr | decide
  have h2 : legal32 r.offset = true := by cases r <;> decide
  have h3 : regAt r.offset = some r := by cases r <;> decide
  rw [if_neg h1, if_pos h2, State.busWrite32, h3]

end Sys2Proof.Machine
end

