-- ==== Sys2Proof/Laws/PerInstr.lean ====
section
/-! SUPPORT. The family `EncodedFields`: what the word of each command holds in each field (30_encoding.md R91 to R94, R97). -/

namespace Sys2Proof.Laws.EncodedFields

/-- The operand fields the row of a command uses (30_encoding.md R93), as the command's operands; `none` for a field it does not use. -/
def operands : Instr → Option Byte × Option Half
  | .crcInit => (none, none)
  | .crcByte a8 => (some a8, none)
  | .lrcReset => (none, none)
  | .lrcPush a8 => (some a8, none)
  | .tcpEncode a8 => (some a8, none)
  | .tcpReply a8 a16 => (some a8, some a16)
  | .mbapParse => (none, none)
  | .tcpDecode => (none, none)
  | .tcpSplit => (none, none)
  | .rtuEncode a8 => (some a8, none)
  | .rtuRxlen => (none, none)
  | .rtuDecode => (none, none)
  | .asciiEncode a8 => (some a8, none)
  | .asciiDecode => (none, none)

/-- The word of `i` holds its opcode and its operands, 0 in each field it does not use, and is well formed. -/
def Statement (i : Instr) : Prop :=
  opField (encode i) = i.opcode ∧ a8Field (encode i) = (operands i).1.getD 0 ∧ a16Field (encode i) = (operands i).2.getD 0 ∧
  commandWordWf (encode i) = true

theorem of_commandWord {i : Instr} {op a8 : Byte} {a16 : Half} (h : encode i = commandWord op a8 a16) (h1 : op = i.opcode)
    (h2 : a8 = (operands i).1.getD 0) (h3 : a16 = (operands i).2.getD 0) (h4 : illegalOpcode i.opcode = false) : Statement i := by
  subst h1 h2 h3
  refine ⟨by rw [h]; simp, by rw [h]; simp, by rw [h]; simp, ?_⟩
  have : (encode i).extractLsb' 0 8 = i.opcode := by rw [h]; exact opField_commandWord _ _ _
  rw [commandWordWf, this, h4]; rfl

theorem crcInit : Statement .crcInit := of_commandWord rfl rfl rfl rfl rfl
theorem crcByte (a8 : Byte) : Statement (.crcByte a8) := of_commandWord rfl rfl rfl rfl rfl
theorem lrcReset : Statement .lrcReset := of_commandWord rfl rfl rfl rfl rfl
theorem lrcPush (a8 : Byte) : Statement (.lrcPush a8) := of_commandWord rfl rfl rfl rfl rfl
theorem tcpEncode (a8 : Byte) : Statement (.tcpEncode a8) := of_commandWord rfl rfl rfl rfl rfl
theorem tcpReply (a8 : Byte) (a16 : Half) : Statement (.tcpReply a8 a16) := of_commandWord rfl rfl rfl rfl rfl
theorem mbapParse : Statement .mbapParse := of_commandWord rfl rfl rfl rfl rfl
theorem tcpDecode : Statement .tcpDecode := of_commandWord rfl rfl rfl rfl rfl
theorem tcpSplit : Statement .tcpSplit := of_commandWord rfl rfl rfl rfl rfl
theorem rtuEncode (a8 : Byte) : Statement (.rtuEncode a8) := of_commandWord rfl rfl rfl rfl rfl
theorem rtuRxlen : Statement .rtuRxlen := of_commandWord rfl rfl rfl rfl rfl
theorem rtuDecode : Statement .rtuDecode := of_commandWord rfl rfl rfl rfl rfl
theorem asciiEncode (a8 : Byte) : Statement (.asciiEncode a8) := of_commandWord rfl rfl rfl rfl rfl
theorem asciiDecode : Statement .asciiDecode := of_commandWord rfl rfl rfl rfl rfl

end Sys2Proof.Laws.EncodedFields
end

