-- ==== Sys2Proof/Tests/Slice0.lean ====
section
/-! SUPPORT. Smoke tests of well-formedness, decoded words, one or two steps of each command with the results 95_test_vectors.md gives, and a
witness that meets the hypotheses of each statement, clause by clause. Every expected value is the spec's. -/

namespace Sys2Proof.Machine.Test

open Sys2Proof

/-! ### Helpers -/

/-- The state after reset, with a PDU and a received frame in place. -/
def mk (pdu rx : List Byte) : State :=
  { State.reset with
    mem := (Memory.writeRun [] pduBase pdu).writeRun rxBase rx
    pduLen := BitVec.ofNat 9 pdu.length
    rxLen := BitVec.ofNat 10 rx.length }

/-- The PDU of the spec's example request: read 10 holding registers from 0. -/
def readPdu : List Byte := [0x03, 0x00, 0x00, 0x00, 0x0A]

/-- The reply PDU of the spec's examples. -/
def replyPdu : List Byte := [0x03, 0x04, 0x00, 0x0A, 0x30, 0x39]

/-- After TCP_ENCODE of `readPdu` for slave 1 from reset, `rx` received. -/
def tcpRx (rx : List Byte) : State := { mk readPdu rx with req := ⟨.tcp, 0x01, 0x03, 1⟩, tid := 1 }

/-- After RTU_ENCODE of `readPdu` for slave 1 from reset, `rx` received. -/
def rtuRx (rx : List Byte) : State := { mk readPdu rx with req := ⟨.rtu, 0x01, 0x03, 0⟩, predLen := 25 }

/-- After ASCII_ENCODE of `readPdu` for slave 1 from reset, `rx` received. -/
def asciiRx (rx : List Byte) : State := { mk readPdu rx with req := ⟨.ascii, 0x01, 0x03, 0⟩ }

/-- A command on a state that meets `p` where it ends. -/
def ends (r : Result) (p : State → Bool) : Bool :=
  match r with
  | .next t => p t
  | .fault _ => false
  | .refused _ => false

/-- `s` with the accesses `es` to serve. -/
def hosting (s : State) (es : List Event) : State := { s with pending := es }

/-! ### Well-formedness: an ill-formed word at each end of each range of 30_encoding.md R95 -/

theorem test_wf_refuses : ([0x00000000, 0x00000003, 0x0000000F, 0x00000012, 0x0000001F, 0x00000025, 0x0000002F, 0x00000033, 0x0000003F,
    0x00000042, 0x000000FF, 0x1234FF80] : List Word).all (fun w => !commandWordWf w && (decodeTableWord 32 w.toNat).isNone) = true := by decide

theorem test_wf_accepts : ([0x01, 0x02, 0x10, 0x11, 0x20, 0x21, 0x22, 0x23, 0x24, 0x30, 0x31, 0x32, 0x40, 0x41] : List Word).all commandWordWf = true := by
  decide

/-! ### Decoding: words of 30_encoding.md R99 and 95_test_vectors.md section 2, or `a16 << 16 | a8 << 8 | OP` written out (R91, R93) -/

theorem test_decode_crcInit : decode 0x00000001 = .ok .crcInit := by decide
theorem test_decode_crcByte : decode 0b00000000000000000011010000000010 = .ok (.crcByte 0x34) := by decide
theorem test_decode_lrcReset : decode 0x00000010 = .ok .lrcReset := by decide
theorem test_decode_lrcPush : decode 0b00000000000000001111001000010001 = .ok (.lrcPush 0xF2) := by decide
theorem test_decode_tcpEncode : decode 0b00000000000000000000000100100000 = .ok (.tcpEncode 0x01) := by decide
theorem test_decode_tcpReply : decode 0b00010010001101000001000100100001 = .ok (.tcpReply 0x11 0x1234) := by decide
theorem test_decode_mbapParse : decode 0x00000022 = .ok .mbapParse := by decide
theorem test_decode_tcpDecode : decode 0x00000023 = .ok .tcpDecode := by decide
theorem test_decode_tcpSplit : decode 0x00000024 = .ok .tcpSplit := by decide
theorem test_decode_rtuEncode : decode 0b00000000000000000000000100110000 = .ok (.rtuEncode 0x01) := by decide
theorem test_decode_rtuRxlen : decode 0x00000031 = .ok .rtuRxlen := by decide
theorem test_decode_rtuDecode : decode 0x00000032 = .ok .rtuDecode := by decide
theorem test_decode_asciiEncode : decode 0b00000000000000000001000101000000 = .ok (.asciiEncode 0x11) := by decide
theorem test_decode_asciiDecode : decode 0b00000000000000000000000001000001 = .ok .asciiDecode := by decide
theorem test_decode_ignores_a16 : decode 0xABCD0102 = .ok (.crcByte 0x01) ∧ decode 0xFFFF0111 = .ok (.lrcPush 0x01) := by decide

theorem test_fetch_word : decodeTableWord 32 0x12341121 = some (.tcpReply 0x11 0x1234) ∧
    ends (step (State.reset.withFetchWord 32 0x00000111)) (fun t => t.lrcSum == 0x01 && t.pending.isEmpty) = true := by decide

/-! ### One step of each command (95_test_vectors.md section 2) -/

theorem test_crcInit : ends (exec .crcInit ({ State.reset with crcAcc := 0x1234 })) (fun t =>
    t.crcAcc == 0xFFFF && t.status.word == 0x01000000) = true := by decide
theorem test_crcByte_index_zero : ends (exec (.crcByte 0x34) ({ State.reset with crcAcc := 0x1234 })) (fun t =>
    t.crcAcc == 0x0012 && t.status.word == 0x02000000) = true := by decide
theorem test_crcByte : ends (exec (.crcByte 0x03) ({ State.reset with crcAcc := 0x807E })) (fun t =>
    t.crcAcc == 0x2140 && t.status.word == 0x02000000) = true := by decide
theorem test_lrcReset : ends (exec .lrcReset ({ State.reset with lrcSum := 0x0E })) (fun t =>
    t.lrcSum == 0x00 && t.status.word == 0x10000000) = true := by decide
theorem test_lrcPush : ends (exec (.lrcPush 0xF2) ({ State.reset with lrcSum := 0x0E })) (fun t =>
    t.lrcSum == 0x00 && t.status.word == 0x11000000) = true := by decide
theorem test_lrcPush_value : ends (exec (.lrcPush 0x01) (State.reset)) (fun t =>
    t.busRead32 0x00C == 0x0000FF01) = true := by decide
theorem test_tcpEncode : ends (exec (.tcpEncode 0x01) (mk readPdu [])) (fun t =>
    t.status.word == 0x20000000 && t.tid == 1 && t.req.tid == 1 && t.busRead32 0x028 == 0x00010301 &&
    t.txFrame == [0x00, 0x01, 0x00, 0x00, 0x00, 0x06, 0x01, 0x03, 0x00, 0x00, 0x00, 0x0A]) = true := by decide
theorem test_tcpEncode_wraps : ends (exec (.tcpEncode 0x01) ({ mk readPdu [] with tid := 0xFFFF })) (fun t =>
    t.tid == 0 && t.txFrame == [0x00, 0x00, 0x00, 0x00, 0x00, 0x06, 0x01, 0x03, 0x00, 0x00, 0x00, 0x0A]) = true := by decide
theorem test_tcpReply : ends (exec (.tcpReply 0x11 0x1234) (mk [0x06, 0x00, 0x0A, 0x30, 0x39] [])) (fun t =>
    t.status.word == 0x21000000 && t.tid == 0 && t.req == State.reset.req &&
    t.txFrame == [0x12, 0x34, 0x00, 0x00, 0x00, 0x06, 0x11, 0x06, 0x00, 0x0A, 0x30, 0x39]) = true := by decide
theorem test_mbapParse : ends (exec .mbapParse (mk [] [0xAB, 0xCD, 0x12, 0x34, 0x00, 0x06, 0x22, 0x03, 0x00, 0x00])) (fun t =>
    t.status.word == 0x22000000 && t.busRead32 0x03C == 0x1234ABCD && t.busRead32 0x040 == 0x00220006 && t.rxExpect == 12) = true := by decide
theorem test_mbapParse_bad_length : ends (exec .mbapParse (mk [] [0x00, 0x01, 0x00, 0x00, 0x01, 0x00, 0x01])) (fun t =>
    t.status.word == 0x22001103 && t.rxExpect == 0) = true := by decide
theorem test_tcpDecode : ends (exec .tcpDecode (tcpRx [0x00, 0x01, 0x00, 0x00, 0x00, 0x07, 0x01, 0x03, 0x04, 0x00, 0x0A, 0x30, 0x39])) (fun t =>
    t.status.word == 0x23000000 && t.pdu == replyPdu && t.pduLen == 6) = true := by decide
theorem test_tcpDecode_exception : ends (exec .tcpDecode (tcpRx [0x00, 0x01, 0x00, 0x00, 0x00, 0x03, 0x01, 0x83, 0x2A])) (fun t =>
    t.status.word == 0x232A0001 && t.pdu == [0x83, 0x2A]) = true := by decide
theorem test_tcpSplit : ends (exec .tcpSplit (mk [] [0x00, 0x05, 0x00, 0x07, 0x00, 0x06, 0x11, 0x03, 0x00, 0x6B, 0x00, 0x03])) (fun t =>
    t.status.word == 0x24000000 && t.busRead32 0x03C == 0x00070005 && t.busRead32 0x040 == 0x00110006 &&
    t.pdu == [0x03, 0x00, 0x6B, 0x00, 0x03]) = true := by decide
theorem test_tcpSplit_no_data : ends (exec .tcpSplit (mk [] [0x00, 0x05, 0x00, 0x00, 0x00, 0x02, 0x11, 0x2B])) (fun t =>
    t.status.word == 0x24000000 && t.pdu == [0x2B]) = true := by decide
theorem test_rtuEncode : ends (exec (.rtuEncode 0x01) ({ mk readPdu [] with baud := 9600 })) (fun t =>
    t.status.word == 0x30000000 && t.txFrame == [0x01, 0x03, 0x00, 0x00, 0x00, 0x0A, 0xC5, 0xCD] &&
    t.predLen == 25 && t.delayUs == 55191) = true := by decide
theorem test_rtuEncode_no_formula : ends (exec (.rtuEncode 0x01) ({ mk [0x2B, 0x0E, 0x01, 0x00] [] with baud := 9600 })) (fun t =>
    t.txFrame == [0x01, 0x2B, 0x0E, 0x01, 0x00, 0x70, 0x77] && t.predLen == 4 && t.delayUs == 20827) = true := by decide
theorem test_rtuRxlen : ends (exec .rtuRxlen (rtuRx [0x02, 0x03, 0x04, 0x00])) (fun t =>
    t.status.word == 0x31000000 && t.rxExpect == 25) = true := by decide
theorem test_rtuRxlen_exception : ends (exec .rtuRxlen (rtuRx [0x01, 0x83, 0x02, 0xC0])) (fun t =>
    t.status.word == 0x31000000 && t.rxExpect == 5) = true := by decide
theorem test_rtuDecode : ends (exec .rtuDecode (rtuRx [0x01, 0x03, 0x04, 0x00, 0x0A, 0x30, 0x39, 0x0E, 0x23])) (fun t =>
    t.status.word == 0x32000000 && t.pdu == replyPdu) = true := by decide
theorem test_rtuDecode_crc_first : ends (exec .rtuDecode (rtuRx [0x02, 0x03, 0x04, 0x00, 0x0A, 0x30, 0x39, 0x0E, 0x23])) (fun t =>
    t.status.word == 0x32001403 && t.pdu == readPdu) = true := by decide
theorem test_asciiEncode : ends (exec (.asciiEncode 0x01) (mk readPdu [])) (fun t =>
    t.status.word == 0x40000000 &&
    t.txFrame == [0x3A, 0x30, 0x31, 0x30, 0x33, 0x30, 0x30, 0x30, 0x30, 0x30, 0x30, 0x30, 0x41, 0x46, 0x32, 0x0D, 0x0A]) = true := by decide
theorem test_asciiDecode_lower_case : ends (exec .asciiDecode (asciiRx [0x3A, 0x30, 0x31, 0x30, 0x33, 0x30, 0x34, 0x30, 0x30, 0x30, 0x61, 0x33, 0x30, 0x33, 0x39, 0x38, 0x35, 0x0D, 0x0A])) (fun t =>
    t.status.word == 0x41000000 && t.pdu == replyPdu) = true := by decide
theorem test_asciiDecode_start_first : ends (exec .asciiDecode (asciiRx [0x58, 0x30, 0x31, 0x30, 0x33, 0x30, 0x34, 0x30, 0x30, 0x30, 0x41, 0x33, 0x30, 0x33, 0x39, 0x38, 0x0D, 0x0A])) (fun t =>
    t.status.word == 0x41001503) = true := by decide

theorem test_delay_hi : (State.busRead32 { State.reset with delayUs := BitVec.ofNat 64 (rtuDelay 1 512) } 0x034) = 0xCBD98EC0 ∧
    (State.busRead32 { State.reset with delayUs := BitVec.ofNat 64 (rtuDelay 1 512) } 0x038) = 0x00000001 := by decide

/-! ### Witnesses: encoding and the step -/

theorem witness_DecodeEncodeRoundTrip : Instr.wf (.tcpReply 0x11 0xFFFF) = true ∧ Instr.wf (.crcByte 0xFF) = true := by decide

theorem witness_IllegalOpcodes : illegalOpcode (opField 0x1234FF42) = true ∧ illegalOpcode (opField 0x00000041) = false := by decide

theorem witness_UnusedOperandFields :
    (opField 0xABCD0102 = opField 0x00000102 ∧ a8Field 0xABCD0102 = a8Field 0x00000102) ∧
    (opField 0xFFFFFF01 = opField 0x00000001 ∧ opField 0xFFFFFF01 ∉ [0x02, 0x11, 0x20, 0x21, 0x30, 0x40]) ∧
    (opField 0x12341121 = 0x21 ∧ a8Field 0x12341121 = 0x11 ∧ a16Field 0x12341121 = 0x1234) := by decide

theorem witness_StepRuns : (hosting State.reset [.write32 0x000 0x00000111]).pending = .write32 0x000 0x00000111 :: [] ∧
    decode 0x00000111 = .ok (.lrcPush 0x01) ∧
    (hosting State.reset [.write8 0x000 0x01]).pending = .write8 0x000 0x01 :: [] := by decide

/-- The ends of the six ranges: each is a word whose `OP` the disjunction names, and the step writes STATUS as 95_test_vectors.md 2.6 gives it. -/
theorem witness_IllegalCommand : ([0x00, 0x03, 0x0F, 0x12, 0x1F, 0x25, 0x2F, 0x33, 0x3F, 0x42, 0xFF] : List Nat).all (fun op =>
    decide (op = 0x00 ∨ 0x03 ≤ op ∧ op ≤ 0x0F ∨ 0x12 ≤ op ∧ op ≤ 0x1F ∨ 0x25 ≤ op ∧ op ≤ 0x2F ∨ 0x33 ≤ op ∧ op ≤ 0x3F ∨
      0x42 ≤ op ∧ op ≤ 0xFF) &&
    ends (step (hosting State.reset [.write32 0x000 (BitVec.ofNat 32 op)])) (fun t =>
      t.status.word == BitVec.ofNat 32 (op * 2 ^ 24 + 4) && t.crcAcc == 0xFFFF)) = true := by decide

theorem witness_Idle : State.reset.pending = [] := by decide

theorem witness_LegalInputs : (hosting State.reset [.read8 0x1FF, .write32 0x040 0, .write8 0xBFF 1, .reset]).LegalInputs := by
  unfold State.LegalInputs; decide

/-! ### Witnesses: the bus -/

/-- Each clause at the offsets where the map changes: a bus error exactly at the offsets the clause names. -/
theorem witness_BusErrors :
    (([0x0FF, 0x200, 0x3FF, 0x7FF, 0x800, 0xBFF, 0xC00, 0x100, 0x1FF, 0x400, 0x043, 0xFFF] : List Addr).map fun a =>
      match step (hosting State.reset [.write8 a 0]) with | .fault _ => true | .next _ => false | .refused _ => false) =
      [true, true, true, false, false, false, true, false, false, false, true, true] ∧
    (([0x000, 0x040, 0x041, 0x043, 0x044, 0x100, 0x102, 0x1FC, 0x200, 0xBFC, 0xC00, 0xFFC] : List Addr).map fun a =>
      match step (hosting State.reset [.write32 a 0]) with | .fault _ => true | .next _ => false | .refused _ => false) =
      [false, false, true, true, true, false, true, false, true, false, true, true] := by decide

theorem witness_ReadsHaveNoSideEffects :
    (hosting State.reset [.read32 0x00C, .read32 0x00C]).pending = .read32 0x00C :: .read32 0x00C :: [] ∧
    Event.legal (.read32 0x00C) = true ∧ Event.legal (.read8 0x1FF) = true := by decide

theorem witness_ReadStep : legal32 0x040 = true ∧ isBufferByte (0x1FC : Addr).toNat = true ∧ isBufferByte (0xA00 : Addr).toNat = true ∧
    InBufferWindow (0x1FD : Addr).toNat ∧ isBufferByte (0x1FD : Addr).toNat = false := by decide

theorem witness_RegisterWrites : ([0x004, 0x014, 0x018, 0x020, 0x040] : List Addr).all (fun a =>
    decide (a ≠ 0x000 ∧ a.toNat ≤ 0x040 ∧ a.toNat % 4 = 0) &&
    ends (step (hosting State.reset [.write32 a 0xFFFFFFFF])) (fun t =>
      t.baud == (if a = 0x014 then 0xFFFFFFFF else 0) && t.pduLen == (if a = 0x018 then 511 else 0) &&
      t.rxLen == (if a = 0x020 then 1023 else 0))) = true := by decide

/-- The last stored byte and the first ignored one of each window. -/
theorem witness_ByteWrites : ([0x100, 0x1FC, 0x1FD, 0x1FF, 0x400, 0x7FF, 0x800, 0xA00, 0xA01, 0xBFF] : List Addr).all (fun a =>
    decide (InBufferWindow a.toNat) &&
    ends (step (hosting State.reset [.write8 a 0x5A])) (fun t =>
      t.mem == (if a.toNat ≤ 0x1FC ∨ 0x800 ≤ a.toNat ∧ a.toNat ≤ 0xA00 then [(a.toNat, 0x5A)] else []))) = true := by decide

theorem witness_WordAccesses : InBufferWindow (0x1FC : Addr).toNat ∧ (0x1FC : Addr).toNat % 4 = 0 ∧
    ends (step (hosting State.reset [.write32 0x1FC 0x44332211])) (fun t => t.mem == [(0x1FC, 0x11)]) = true ∧
    ends (step (hosting State.reset [.write32 0x100 0x44332211])) (fun t =>
      t.mem == [(0x100, 0x11), (0x101, 0x22), (0x102, 0x33), (0x103, 0x44)]) = true := by decide

theorem witness_HostPrograms :
    (hosting State.reset (Prog.setPdu readPdu)).pending = Prog.setPdu readPdu ++ [] ∧ readPdu.length ≤ 253 ∧
    (hosting State.reset (Prog.setRx [0x01])).pending = Prog.setRx [0x01] ++ [] ∧ [(0x01 : Byte)].length ≤ 513 ∧
    (List.replicate 253 (0 : Byte)).length ≤ 253 ∧ (List.replicate 513 (0 : Byte)).length ≤ 513 := by decide +kernel

/-! ### Witnesses: reset and STATUS -/

theorem witness_Reset : (hosting { State.reset with crcAcc := 0, lrcSum := 5, mem := [(0x100, 1)] } [.reset]).pending = .reset :: [] ∧
    ends (step (hosting { State.reset with crcAcc := 0, lrcSum := 5, mem := [(0x100, 1)] } [.reset])) (fun t =>
      t.crcAcc == 0xFFFF && t.lrcSum == 0 && t.mem == [] && t.resets == 1) = true := by decide

theorem witness_FreshBlock : State.reset.req = State.reset.req ∧
    ends (exec (.tcpEncode 0x01) State.reset) (fun t => t.status.res == .paramErr && t.req == State.reset.req) = true := by decide

/-- Each result class a command can report. -/
theorem witness_EveryCommandWritesStatus :
    ends (exec .tcpDecode State.reset) (fun t => t.status == ⟨.paramErr, .noRequest, 0, 0x23⟩) = true ∧
    ends (exec .mbapParse State.reset) (fun t => t.status == ⟨.frameErr, .short, 0, 0x22⟩) = true ∧
    ends (exec .crcInit State.reset) (fun t => t.status == ⟨.ok, .none, 0, 0x01⟩) = true ∧
    ends (exec .rtuDecode (rtuRx [0x01, 0x83, 0x02, 0xC0, 0xF1])) (fun t => t.status == ⟨.exception, .none, 0x02, 0x32⟩) = true := by
  decide

theorem witness_FrameCommands : isFrameCommand (.tcpEncode 0x01) ∧ isFrameCommand .asciiDecode ∧ ¬ isFrameCommand (.lrcPush 0) := by
  unfold isFrameCommand; decide

theorem witness_FrameInputsAgree : FrameInputsAgree (mk readPdu []) { mk readPdu [] with crcAcc := 0, lrcSum := 7, txLen := 9, delayUs := 3 } :=
  ⟨rfl, rfl, rfl, rfl, rfl, rfl, fun _ _ => rfl, fun _ _ => rfl⟩

theorem witness_FrameCommandsReadOnly : (Instr.tcpEncode 0x01).opcode ∈ [0x20, 0x21, 0x30, 0x40] ∧
    ends (exec (.tcpEncode 0x01) (mk readPdu [])) (fun t => t.status.res == .ok) = true ∧
    ends (exec (.tcpEncode 0x01) { mk readPdu [] with crcAcc := 0, lrcSum := 7, txLen := 9, delayUs := 3 }) (fun t => t.status.res == .ok)
      = true := by decide

/-- The other results: each command that writes one succeeds from two states that agree on its inputs and differ in the result's register. -/
theorem witness_FrameCommandsReadOnly_results :
    FrameInputsAgree (rtuRx [0x00, 0x03, 0x00, 0x00, 0x00, 0x02, 0x11, 0x2B])
      { rtuRx [0x00, 0x03, 0x00, 0x00, 0x00, 0x02, 0x11, 0x2B] with hdr := ⟨1, 2, 3, 4⟩, rxExpect := 9, delayUs := 3 } ∧
    ([.mbapParse, .tcpSplit, .rtuRxlen, .rtuEncode 0x01] : List Instr).all (fun i =>
      ends (exec i (rtuRx [0x00, 0x03, 0x00, 0x00, 0x00, 0x02, 0x11, 0x2B])) (fun t => t.status.res == .ok) &&
      ends (exec i { rtuRx [0x00, 0x03, 0x00, 0x00, 0x00, 0x02, 0x11, 0x2B] with hdr := ⟨1, 2, 3, 4⟩, rxExpect := 9, delayUs := 3 })
        (fun t => t.status.res == .ok)) = true :=
  ⟨⟨rfl, rfl, rfl, rfl, rfl, rfl, fun _ _ => rfl, fun _ _ => rfl⟩, by decide⟩

/-! ### Witnesses: CRC and LRC -/

theorem witness_CrcCommands :
    (hosting State.reset (([.lrcReset, .crcInit, .tcpDecode, .crcByte 0x01, .lrcPush 0x02, .crcByte 0x03] : List Instr).map Prog.command)).pending =
      ([.lrcReset, .crcInit, .tcpDecode, .crcByte 0x01, .lrcPush 0x02, .crcByte 0x03] : List Instr).map Prog.command ++ [] ∧
    ([.lrcReset, .crcInit, .tcpDecode, .crcByte 0x01, .lrcPush 0x02, .crcByte 0x03] : List Instr).filter isCrcCommand =
      .crcInit :: (([0x01] : List Byte) ++ [0x03]).map .crcByte ∧
    isCrcCommand (.rtuEncode 0x01) = false := by decide

theorem witness_LrcCommands :
    ([.lrcReset, .crcInit, .lrcPush 0x01, .tcpDecode, .lrcPush 0x03] : List Instr).filter isLrcCommand =
      .lrcReset :: ([0x01, 0x03] : List Byte).map .lrcPush ∧ ([0x01, 0x03] : List Byte).Perm [0x03, 0x01] := by decide

/-! ### Witnesses: encoders -/

/-- A PDU of the sizes 0, 1, 253 and 254: both sides of the check, and the results at its bounds. -/
def sized (n : Nat) : State := { State.reset with mem := Memory.writeRun [] pduBase (List.replicate (min n 253) 0x07), pduLen := BitVec.ofNat 9 n }

theorem witness_PduSize : ([0, 254, 511] : List Nat).all (fun n => decide (¬ (1 ≤ (sized n).pduLen.toNat ∧ (sized n).pduLen.toNat ≤ 253))) = true ∧
    ([1, 253] : List Nat).all (fun n => decide (1 ≤ (sized n).pduLen.toNat ∧ (sized n).pduLen.toNat ≤ 253)) = true := by decide +kernel

theorem witness_Encoders : ([.tcpEncode 1, .tcpReply 1 2, .rtuEncode 1, .asciiEncode 1] : List Instr).all (fun i =>
    decide (i.opcode ∈ ([0x20, 0x21, 0x30, 0x40] : List Byte)) && ends (exec i (sized 1)) (fun t => t.status.res == .ok) &&
    ends (exec i (sized 254)) (fun t => t.status == ⟨.paramErr, .pduSize, 0, i.opcode⟩)) = true := by decide

theorem witness_Encoders_longest : ends (exec (.tcpEncode 1) (sized 253)) (fun t => t.txLen == 260) = true ∧
    ends (exec (.tcpReply 1 2) (sized 253)) (fun t => t.txLen == 260) = true ∧
    ends (exec (.rtuEncode 1) (sized 253)) (fun t => t.txLen == 256) = true ∧
    ends (exec (.asciiEncode 1) (sized 253)) (fun t => t.txLen == 513) = true := by decide +kernel

theorem witness_TransactionCounter : ends (exec (.tcpEncode 1) { sized 1 with tid := 0xFFFF }) (fun t => t.tid == 0 && t.status.res == .ok) = true ∧
    ends (exec (.tcpEncode 1) { sized 0 with tid := 0xFFFF }) (fun t => t.tid == 0xFFFF && t.status.res == .paramErr) = true ∧
    (hosting (sized 1) [Prog.command (.tcpEncode 1), Prog.command (.tcpEncode 2)]).pending =
      ([0x01, 0x02] : List Byte).map (fun a8 => Prog.command (.tcpEncode a8)) ++ [] ∧ (sized 1).tid = 0 ∧ (sized 1).pduLen.toNat = 1 := by decide

/-- Each clause of the prediction, at its bounds (95_test_vectors.md 2.4). -/
theorem witness_RtuPrediction :
    rtuPredict [0x03, 0x00, 0x00, 0x00] = .error (.param .predShort) ∧ rtuPredict [0x01] = .error (.param .predShort) ∧
    rtuPredict [0x01, 0x00, 0x00, 0x07, 0xD8] = .ok 256 ∧ rtuPredict [0x01, 0x00, 0x00, 0x07, 0xD9] = .error (.param .predRange) ∧
    rtuPredict [0x02, 0x00, 0x00, 0x00, 0x09] = .ok 7 ∧
    rtuPredict [0x03, 0x00, 0x00, 0x00, 0x7D] = .ok 255 ∧ rtuPredict [0x03, 0x00, 0x00, 0x00, 0x7E] = .error (.param .predRange) ∧
    rtuPredict [0x04, 0x00, 0x00, 0x00, 0x00] = .ok 5 ∧ rtuPredict [0x05, 0x00, 0xAC, 0xFF, 0x00] = .ok 8 ∧
    rtuPredict [0x16, 0x00, 0x04, 0xFF, 0x00, 0x00, 0x0F] = .ok 10 ∧ rtuPredict [0x18, 0x04, 0xDE] = .ok 4 ∧ rtuPredict [0x07] = .ok 4 := by
  decide

theorem witness_RtuDelay : rtuDelay 1 33 = 530000000 ∧ rtuDelay 19200 33 = 27595 ∧ rtuDelay 19201 33 = 26500 ∧ rtuDelay 0 33 = 26500 ∧
    ends (exec (.rtuEncode 1) { mk readPdu [] with baud := 1 }) (fun t => t.status.res == .ok && t.delayUs == 530000000) = true := by decide

/-- Both premises about the prediction, on states with a PDU of legal size. -/
theorem witness_RtuEncode : rtuPredict ((mk readPdu []).bytes 0x100 5) = .ok 25 ∧ (mk readPdu []).pduLen.toNat = 5 ∧
    rtuPredict ((mk [0x01] []).bytes 0x100 1) = .error (.param .predShort) ∧ (mk [0x01] []).pduLen.toNat = 1 ∧
    rtuPredict ((mk [0x03, 0x00, 0x00, 0x00, 0x7E] []).bytes 0x100 5) = .error (.param .predRange) := by decide

/-! ### Witnesses: the receive side, one clause each, in the order of the checks -/

theorem witness_MbapParse :
    (mk [] [0x00, 0x01, 0x00, 0x00, 0x00, 0x06]).rxLen.toNat < 7 ∧ 7 ≤ (mk [] [0x00, 0x01, 0x00, 0x00, 0x00, 0x00, 0x01]).rxLen.toNat ∧
    (mk [] [0x00, 0x01, 0x00, 0x00, 0x00, 0x00, 0x01]).mbapLen = 0 ∧ (mk [] [0x00, 0x01, 0x00, 0x00, 0x00, 0xFF, 0x01]).mbapLen = 255 ∧ (mk [] [0x00, 0x01, 0x00, 0x00, 0x00, 0x01, 0x01]).mbapLen = 1 ∧
    (mk [] [0x00, 0x01, 0x00, 0x00, 0x00, 0xFE, 0x01]).mbapLen = 254 ∧
    ends (exec .mbapParse { mk [] [0x00, 0x01, 0x00, 0x00, 0x00, 0xFE, 0x01] with rxLen := 513 }) (fun t => t.rxExpect == 260) = true := by decide

/-- The four errors of TCP_SPLIT, first failing check first (95_test_vectors.md 2.3), and its shortest frame. -/
theorem witness_TcpSplit :
    ends (exec .tcpSplit (mk [] [0x00, 0x05, 0x00, 0x00, 0x00, 0x06])) (fun t => t.status == ⟨.frameErr, .short, 0, 0x24⟩) = true ∧
    ends (exec .tcpSplit (mk [] [0x00, 0x05, 0x00, 0x00, 0x00, 0x00, 0x11])) (fun t => t.status == ⟨.frameErr, .badLength, 0, 0x24⟩) = true ∧
    ends (exec .tcpSplit (mk [] [0x00, 0x05, 0x00, 0x00, 0x00, 0xFF, 0x11])) (fun t => t.status == ⟨.frameErr, .badLength, 0, 0x24⟩) = true ∧
    ends (exec .tcpSplit (mk [] [0x00, 0x05, 0x00, 0x00, 0x00, 0x06, 0x11, 0x03, 0x00, 0x6B, 0x00])) (fun t => t.status == ⟨.frameErr, .lengthMismatch, 0, 0x24⟩) = true ∧
    ends (exec .tcpSplit (mk [] [0x00, 0x05, 0x00, 0x00, 0x00, 0x01, 0x11])) (fun t => t.status == ⟨.frameErr, .noFunc, 0, 0x24⟩) = true ∧
    (mk [] [0x00, 0x05, 0x00, 0x00, 0x00, 0x02, 0x11, 0x2B]).rxLen.toNat = 6 + 2 := by decide

/-- TCP_DECODE, each failing check and both verdicts, after the checks before it passed. -/
theorem witness_TcpDecode_1 :
    ends (exec .tcpDecode (tcpRx [0x00, 0x01, 0x00, 0x00, 0x00, 0x07])) (fun t => t.status == ⟨.frameErr, .short, 0x00, 0x23⟩) = true ∧
    ends (exec .tcpDecode (tcpRx [0x00, 0x09, 0x00, 0x00, 0x00, 0x00, 0x01])) (fun t => t.status == ⟨.frameErr, .badLength, 0x00, 0x23⟩) = true ∧
    ends (exec .tcpDecode (tcpRx [0x00, 0x01, 0x00, 0x00, 0x00, 0xFF, 0x01])) (fun t => t.status == ⟨.frameErr, .badLength, 0x00, 0x23⟩) = true ∧
    ends (exec .tcpDecode (tcpRx [0x00, 0x01, 0x00, 0x00, 0x00, 0x07, 0x01, 0x03, 0x04, 0x00, 0x0A, 0x30])) (fun t => t.status == ⟨.frameErr, .lengthMismatch, 0x00, 0x23⟩) = true := by decide

/-- The next clauses. -/
theorem witness_TcpDecode_2 :
    ends (exec .tcpDecode (tcpRx [0x00, 0x09, 0x00, 0x00, 0x00, 0x07, 0x09, 0x03, 0x04, 0x00, 0x0A, 0x30, 0x39])) (fun t => t.status == ⟨.frameErr, .tidMismatch, 0x00, 0x23⟩) = true ∧
    ends (exec .tcpDecode (tcpRx [0x00, 0x01, 0x00, 0x01, 0x00, 0x07, 0x01, 0x03, 0x04, 0x00, 0x0A, 0x30, 0x39])) (fun t => t.status == ⟨.frameErr, .pidMismatch, 0x00, 0x23⟩) = true ∧
    ends (exec .tcpDecode (tcpRx [0x00, 0x01, 0x00, 0x00, 0x00, 0x07, 0x02, 0x03, 0x04, 0x00, 0x0A, 0x30, 0x39])) (fun t => t.status == ⟨.frameErr, .slaveMismatch, 0x00, 0x23⟩) = true ∧
    ends (exec .tcpDecode (tcpRx [0x00, 0x01, 0x00, 0x00, 0x00, 0x01, 0x01])) (fun t => t.status == ⟨.frameErr, .noFunc, 0x00, 0x23⟩) = true := by decide

/-- The next clauses. -/
theorem witness_TcpDecode_3 :
    ends (exec .tcpDecode (tcpRx [0x00, 0x01, 0x00, 0x00, 0x00, 0x07, 0x01, 0x04, 0x04, 0x00, 0x0A, 0x30, 0x39])) (fun t => t.status == ⟨.frameErr, .funcMismatch, 0x00, 0x23⟩) = true ∧
    ends (exec .tcpDecode (tcpRx [0x00, 0x01, 0x00, 0x00, 0x00, 0x02, 0x01, 0x03])) (fun t => t.status == ⟨.frameErr, .emptyData, 0x00, 0x23⟩) = true ∧
    ends (exec .tcpDecode (tcpRx [0x00, 0x01, 0x00, 0x00, 0x00, 0x02, 0x01, 0x83])) (fun t => t.status == ⟨.frameErr, .emptyData, 0x00, 0x23⟩) = true ∧
    ends (exec .tcpDecode (tcpRx [0x00, 0x01, 0x00, 0x00, 0x00, 0x04, 0x01, 0x83, 0x02, 0x00])) (fun t => t.status == ⟨.frameErr, .excLength, 0x00, 0x23⟩) = true := by decide

/-- The next clauses. -/
theorem witness_TcpDecode_4 :
    ends (exec .tcpDecode (tcpRx [0x00, 0x01, 0x00, 0x00, 0x00, 0x03, 0x01, 0x03, 0x00])) (fun t => t.status == ⟨.ok, .none, 0x00, 0x23⟩) = true ∧
    ends (exec .tcpDecode (tcpRx [0x00, 0x01, 0x00, 0x00, 0x00, 0x03, 0x01, 0x83, 0x02])) (fun t => t.status == ⟨.exception, .none, 0x02, 0x23⟩) = true := by decide

/-- RTU_DECODE, each failing check and a verdict; 4 bytes is the shortest frame. -/
theorem witness_RtuDecode_1 :
    ends (exec .rtuDecode (rtuRx [0x01, 0x03, 0x04])) (fun t => t.status == ⟨.frameErr, .badSize, 0x00, 0x32⟩) = true ∧
    ends (exec .rtuDecode (rtuRx [0x01, 0x03, 0x04, 0x00, 0x0A, 0x30, 0x39, 0x23, 0x0E])) (fun t => t.status == ⟨.frameErr, .checksum, 0x00, 0x32⟩) = true ∧
    ends (exec .rtuDecode (rtuRx [0x02, 0x03, 0x04, 0x00, 0x0A, 0x30, 0x39, 0x3D, 0x23])) (fun t => t.status == ⟨.frameErr, .slaveMismatch, 0x00, 0x32⟩) = true ∧
    ends (exec .rtuDecode (rtuRx [0x01, 0x04, 0x02, 0x00, 0x00, 0xB9, 0x30])) (fun t => t.status == ⟨.frameErr, .funcMismatch, 0x00, 0x32⟩) = true := by decide

/-- The next clauses. -/
theorem witness_RtuDecode_2 :
    ends (exec .rtuDecode (rtuRx [0x01, 0x03, 0x40, 0x21])) (fun t => t.status == ⟨.frameErr, .emptyData, 0x00, 0x32⟩) = true ∧
    ends (exec .rtuDecode (rtuRx [0x01, 0x83, 0x41, 0x81])) (fun t => t.status == ⟨.frameErr, .emptyData, 0x00, 0x32⟩) = true ∧
    ends (exec .rtuDecode (rtuRx [0x01, 0x83, 0x02, 0x00, 0xF1, 0x50])) (fun t => t.status == ⟨.frameErr, .excLength, 0x00, 0x32⟩) = true ∧
    ends (exec .rtuDecode (rtuRx [0x01, 0x83, 0x00, 0x41, 0x30])) (fun t => t.status == ⟨.exception, .none, 0x00, 0x32⟩) = true := by decide

/-- RTU_RXLEN: its three errors, at the shortest read. -/
theorem witness_RtuRxlen : ends (exec .rtuRxlen (tcpRx [0x01, 0x03, 0x04, 0x00])) (fun t => t.status == ⟨.paramErr, .noRequest, 0, 0x31⟩) = true ∧
    ends (exec .rtuRxlen (rtuRx [0x01, 0x03, 0x04])) (fun t => t.status == ⟨.frameErr, .short, 0, 0x31⟩) = true ∧
    ends (exec .rtuRxlen (rtuRx [0x01, 0x04, 0x04, 0x00])) (fun t => t.status == ⟨.frameErr, .funcMismatch, 0, 0x31⟩) = true ∧
    (rtuRx [0x01, 0x83, 0x02, 0xC0]).rx 1 = (rtuRx [0x01, 0x83, 0x02, 0xC0]).req.fc ||| 0x80 ∧
    ends (exec .rtuRxlen { rtuRx [0x01, 0x03, 0x04, 0x00] with rxLen := 513 }) (fun t => t.rxExpect == 25) = true := by decide

/-- A count above the buffer, at both ends of its range. -/
theorem witness_AboveTheBuffer : 513 < ({ rtuRx [] with rxLen := 514 } : State).rxLen.toNat ∧
    513 < ({ rtuRx [] with rxLen := 1023 } : State).rxLen.toNat ∧ ({ rtuRx [] with rxLen := 1023 } : State).req.mode = .rtu ∧
    ends (exec .tcpDecode { tcpRx [0x00, 0x01, 0x00, 0x00, 0x00, 0x02, 0x01, 0x03] with rxLen := 514 }) (fun t =>
      t.status == ⟨.frameErr, .lengthMismatch, 0, 0x23⟩) = true ∧
    ends (exec .tcpSplit { mk [] [0x00, 0x01, 0x00, 0x00, 0x00, 0x00, 0x01] with rxLen := 1023 }) (fun t =>
      t.status == ⟨.frameErr, .badLength, 0, 0x24⟩) = true ∧
    ends (exec .mbapParse { mk [] [0x00, 0x01, 0x00, 0x00, 0x00, 0xFE, 0x01] with rxLen := 514 }) (fun t => t.rxExpect == 260) = true ∧
    ends (exec .rtuRxlen { rtuRx [0x01, 0x03, 0x04, 0x00] with rxLen := 1023 }) (fun t => t.rxExpect == 25) = true := by decide

/-- ASCII_DECODE, each failing check and a verdict; 9 characters is the shortest frame. -/
theorem witness_AsciiDecode_1 :
    ends (exec .asciiDecode (asciiRx [0x3A, 0x30, 0x31, 0x46, 0x43, 0x30, 0x0D, 0x0A])) (fun t => t.status == ⟨.frameErr, .badSize, 0x00, 0x41⟩) = true ∧
    ends (exec .asciiDecode (asciiRx [0x20, 0x3A, 0x30, 0x31, 0x38, 0x33, 0x30, 0x32, 0x37, 0x41, 0x0D, 0x0A])) (fun t => t.status == ⟨.frameErr, .noStart, 0x00, 0x41⟩) = true ∧
    ends (exec .asciiDecode (asciiRx [0x3A, 0x30, 0x31, 0x30, 0x33, 0x30, 0x34, 0x30, 0x30, 0x30, 0x41, 0x33, 0x30, 0x33, 0x39, 0x38, 0x35, 0x0D, 0x0D])) (fun t => t.status == ⟨.frameErr, .noEnd, 0x00, 0x41⟩) = true ∧
    ends (exec .asciiDecode (asciiRx [0x3A, 0x30, 0x47, 0x30, 0x33, 0x30, 0x34, 0x30, 0x30, 0x30, 0x41, 0x33, 0x30, 0x33, 0x39, 0x38, 0x35, 0x30, 0x0D, 0x0A])) (fun t => t.status == ⟨.frameErr, .oddLength, 0x00, 0x41⟩) = true := by decide

/-- The next clauses. -/
theorem witness_AsciiDecode_2 :
    ends (exec .asciiDecode (asciiRx [0x3A, 0x30, 0x31, 0x30, 0x33, 0x30, 0x34, 0x30, 0x30, 0x3A, 0x41, 0x33, 0x30, 0x33, 0x39, 0x38, 0x35, 0x0D, 0x0A])) (fun t => t.status == ⟨.frameErr, .badHex, 0x00, 0x41⟩) = true ∧
    ends (exec .asciiDecode (asciiRx [0x3A, 0x30, 0x31, 0x30, 0x33, 0x30, 0x34, 0x30, 0x30, 0x30, 0x41, 0x33, 0x30, 0x33, 0x39, 0x38, 0x36, 0x0D, 0x0A])) (fun t => t.status == ⟨.frameErr, .checksum, 0x00, 0x41⟩) = true ∧
    ends (exec .asciiDecode (asciiRx [0x3A, 0x30, 0x32, 0x30, 0x33, 0x30, 0x34, 0x30, 0x30, 0x30, 0x41, 0x33, 0x30, 0x33, 0x39, 0x38, 0x34, 0x0D, 0x0A])) (fun t => t.status == ⟨.frameErr, .slaveMismatch, 0x00, 0x41⟩) = true ∧
    ends (exec .asciiDecode (asciiRx [0x3A, 0x30, 0x31, 0x30, 0x34, 0x30, 0x34, 0x30, 0x30, 0x30, 0x41, 0x33, 0x30, 0x33, 0x39, 0x38, 0x34, 0x0D, 0x0A])) (fun t => t.status == ⟨.frameErr, .funcMismatch, 0x00, 0x41⟩) = true := by decide

/-- The next clauses. -/
theorem witness_AsciiDecode_3 :
    ends (exec .asciiDecode (asciiRx [0x3A, 0x30, 0x31, 0x30, 0x33, 0x46, 0x43, 0x0D, 0x0A])) (fun t => t.status == ⟨.frameErr, .emptyData, 0x00, 0x41⟩) = true ∧
    ends (exec .asciiDecode (asciiRx [0x3A, 0x30, 0x31, 0x38, 0x33, 0x37, 0x43, 0x0D, 0x0A])) (fun t => t.status == ⟨.frameErr, .emptyData, 0x00, 0x41⟩) = true ∧
    ends (exec .asciiDecode (asciiRx [0x3A, 0x30, 0x31, 0x38, 0x33, 0x30, 0x32, 0x30, 0x30, 0x37, 0x41, 0x0D, 0x0A])) (fun t => t.status == ⟨.frameErr, .excLength, 0x00, 0x41⟩) = true ∧
    ends (exec .asciiDecode (asciiRx [0x3A, 0x30, 0x31, 0x38, 0x33, 0x30, 0x32, 0x37, 0x41, 0x0D, 0x0A])) (fun t => t.status == ⟨.exception, .none, 0x02, 0x41⟩) = true := by decide

/-- A frame whose hex text is valid throughout: the premise of ASCII_DECODE's last clauses. -/
theorem witness_AsciiDecode_hex (k : Nat) (h1 : 1 ≤ k) (h2 : k ≤ (asciiRx [0x3A, 0x30, 0x31, 0x38, 0x33, 0x30, 0x32, 0x37, 0x41, 0x0D, 0x0A]).rxLen.toNat - 3) :
    nib ((asciiRx [0x3A, 0x30, 0x31, 0x38, 0x33, 0x30, 0x32, 0x37, 0x41, 0x0D, 0x0A]).rx k) ≠ none :=
  (by decide : ∀ k < 9, 1 ≤ k → nib ((asciiRx [0x3A, 0x30, 0x31, 0x38, 0x33, 0x30, 0x32, 0x37, 0x41, 0x0D, 0x0A]).rx k) ≠ none) k
    (lt_of_le_of_lt h2 (by decide)) h1

/-- The longest frames: the upper bounds of the size checks. -/
theorem witness_longest : ends (exec .rtuDecode { rtuRx [] with rxLen := 257 }) (fun t => t.status.cause == .badSize) = true ∧
    ends (exec .asciiDecode { asciiRx [] with rxLen := 514 }) (fun t => t.status.cause == .badSize) = true ∧
    ends (exec .asciiDecode { asciiRx [] with rxLen := 513, mem := [(0x800, 0x3A), (0x9FF, 0x30), (0xA00, 0x30)] }) (fun t =>
      t.status.cause == .noEnd) = true := by decide

/-! ### Witnesses: round trips and the invariant -/

/-- A request encoded, and a state of the same transaction that has received the reply, for each format. -/
theorem witness_TcpRoundTrip : (mk readPdu []).pdu = readPdu ∧
    ends (exec (.tcpEncode 0x01) (mk readPdu [])) (fun t => t.status.res == .ok && t.req == (tcpRx []).req && t.predLen == (tcpRx []).predLen &&
      t.tid == 1 && t.txFrame == [0x00, 0x01, 0x00, 0x00, 0x00, 0x06, 0x01, 0x03, 0x00, 0x00, 0x00, 0x0A]) = true ∧
    (tcpRx [0x00, 0x01, 0x00, 0x00, 0x00, 0x03, 0x01, 0x03, 0x00]).Received (be16 1 ++ [0, 0] ++ be16 (BitVec.ofNat 16 (2 + 1)) ++ [0x01] ++ (readPdu.headD 0 :: [0x00])) := by
  unfold State.Received; decide

theorem witness_RtuRoundTrip : ends (exec (.rtuEncode 0x01) (mk readPdu [])) (fun t => t.status.res == .ok && t.req == (rtuRx []).req &&
      t.predLen == (rtuRx []).predLen) = true ∧ (readPdu.headD 0).toNat < 0x80 ∧
    (rtuRx [0x01, 0x03, 0x04, 0x00, 0x0A, 0x30, 0x39, 0x0E, 0x23]).Received (0x01 :: readPdu.headD 0 :: [0x04, 0x00, 0x0A, 0x30, 0x39] ++
      le16 (crc16 (0x01 :: readPdu.headD 0 :: [0x04, 0x00, 0x0A, 0x30, 0x39]))) ∧
    (rtuRx [0x01, 0x83, 0x02, 0xC0, 0xF1]).Received ([0x01, readPdu.headD 0 ||| 0x80, 0x02] ++ le16 (crc16 [0x01, readPdu.headD 0 ||| 0x80, 0x02])) := by
  unfold State.Received; decide

theorem witness_AsciiRoundTrip : ends (exec (.asciiEncode 0x01) (mk readPdu [])) (fun t => t.status.res == .ok && t.req == (asciiRx []).req &&
      t.predLen == (asciiRx []).predLen) = true ∧
    (asciiRx [0x3A, 0x30, 0x31, 0x30, 0x33, 0x30, 0x34, 0x30, 0x30, 0x30, 0x61, 0x33, 0x30, 0x33, 0x39, 0x38, 0x35, 0x0D, 0x0A]).Received
      ([0x3A] ++ lowerHex (hex (0x01 :: readPdu.headD 0 :: [0x04, 0x00, 0x0A, 0x30, 0x39] ++
        [lrc (0x01 :: readPdu.headD 0 :: [0x04, 0x00, 0x0A, 0x30, 0x39])])) ++ [0x0D, 0x0A]) ∧
    (asciiRx [0x3A, 0x30, 0x31, 0x38, 0x33, 0x30, 0x32, 0x37, 0x41, 0x0D, 0x0A]).Received
      ([0x3A] ++ hex [0x01, readPdu.headD 0 ||| 0x80, 0x02, lrc [0x01, readPdu.headD 0 ||| 0x80, 0x02]] ++ [0x0D, 0x0A]) := by
  unfold State.Received; decide

/-- The invariant holds of a state with an RTU request outstanding, a reply received and a command to serve. -/
theorem witness_Invariant : (hosting (rtuRx [0x01, 0x83, 0x02, 0xC0, 0xF1]) [.write32 0x000 0x00000032]).Inv ∧
    ends (step (hosting (rtuRx [0x01, 0x83, 0x02, 0xC0, 0xF1]) [.write32 0x000 0x00000032])) (fun t => t.status.res == .exception) = true :=
  ⟨by constructor <;> decide, by decide⟩

end Sys2Proof.Machine.Test
end

section
/-! Laws the proofs of this family share: all that serving an event can do, the frames' lengths, a register's read. -/

namespace Sys2Proof.Machine

/-! ### All a step can do -/

/-- A command word runs the command it selects, or writes `STATUS` (30_encoding.md R90, R95). -/
theorem runCommand_cases {w : Word} {s t : State} (h : runCommand w s = .next t) :
    (∃ i, decode w = .ok i ∧ exec i s = .next t) ∨ illegalOpcode (opField w) = true ∧ t = s.illegal (opField w) := by
  unfold runCommand at h
  rcases decode_cases w with ⟨hop, hd⟩ | ⟨-, i, hd, -⟩ <;> rw [hd] at h
  · exact .inr ⟨hop, (Host.Outcome.next.inj h).symm⟩
  · exact .inl ⟨i, hd, h⟩

/-- All that serving an event can do when it goes on: a legal read answered, a legal write made, a command word, or reset
(20_memory.md R64, 30_encoding.md R90, 70_reset_and_hazards.md R280). -/
theorem serve_cases {e : Event} {s t : State} (h : serve e s = .next t) :
    (∃ a, e = .read8 a ∧ legal8 a = true ∧ t = s.answer (.data (s.busRead8 a))) ∨
    (∃ a b, e = .write8 a b ∧ legal8 a = true ∧ t = (s.busWrite8 a b).answer .written) ∨
    (∃ a, e = .read32 a ∧ legal32 a = true ∧ t = s.answer (.data (s.busRead32 a))) ∨
    (∃ a v, e = .write32 a v ∧ a ≠ Reg.offset .cmd ∧ legal32 a = true ∧ t = (s.busWrite32 a v).answer .written) ∨
    (∃ w, e = .write32 (Reg.offset .cmd) w ∧ runCommand w (s.answer .written) = .next t) ∨
    e = .reset ∧ t = s.afterReset := by
  cases e <;> simp only [serve] at h
  case read8 a =>
    split at h <;> cases h
    exact .inl ⟨a, rfl, ‹_›, rfl⟩
  case write8 a b =>
    split at h <;> cases h
    exact .inr (.inl ⟨a, b, rfl, ‹_›, rfl⟩)
  case read32 a =>
    split at h <;> cases h
    exact .inr (.inr (.inl ⟨a, rfl, ‹_›, rfl⟩))
  case write32 a v =>
    split at h
    · next ha => exact .inr (.inr (.inr (.inr (.inl ⟨v, by rw [ha], h⟩))))
    split at h <;> cases h
    exact .inr (.inr (.inr (.inl ⟨a, v, rfl, ‹_›, ‹_›, rfl⟩)))
  case reset =>
    cases h
    exact .inr (.inr (.inr (.inr (.inr ⟨rfl, rfl⟩))))

/-! ### The lengths of the frames (40_common.md R114, 43_tcp_mbap.md R170, 44_rtu.md R200, 45_ascii.md R230) -/

@[simp] theorem length_tcpFrame (tid : Half) (unit : Byte) (pdu : List Byte) : (tcpFrame tid unit pdu).length = 7 + pdu.length := by
  simp [tcpFrame]; omega

@[simp] theorem length_rtuFrame (slave : Byte) (pdu : List Byte) : (rtuFrame slave pdu).length = pdu.length + 3 := by
  simp [rtuFrame]

@[simp] theorem length_asciiFrame (slave : Byte) (pdu : List Byte) : (asciiFrame slave pdu).length = 2 * pdu.length + 7 := by
  simp [asciiFrame]; omega

/-! ### Registers and bytes of the window -/

/-- A byte write changes no field but the buffers. -/
theorem writeWindowByte_eq (s : State) (a : Nat) (b : Byte) :
    s.writeWindowByte a b = { s with mem := (s.writeWindowByte a b).mem } := by
  unfold State.writeWindowByte
  split <;> rfl

/-- A concatenation's value: the high part times the weight of the low part, plus the low part. -/
theorem toNat_append_eq_add {n m : Nat} (x : BitVec n) (y : BitVec m) : (x ++ y).toNat = x.toNat * 2 ^ m + y.toNat := by
  rw [BitVec.toNat_append, ← Nat.shiftLeft_add_eq_or_of_lt y.isLt, Nat.shiftLeft_eq]

/-- A read of a register's offset reads the register. -/
theorem busRead32_offset (s : State) (r : Reg) : s.busRead32 r.offset = s.readReg r := by
  have hr : regAt r.offset = some r := by cases r <;> decide
  rw [State.busRead32, hr]

end Sys2Proof.Machine
end

section
/-! Proofs about the registers: their read values, the host's writes to them, and the buffers after a served reset. -/

namespace Sys2Proof.Machine

/-! ### The words the registers read as (10_state.md R22 to R41, R47) -/

theorem toNat_statusWord (st : Status) : st.word.toNat =
    st.lastOp.toNat * 2 ^ 24 + st.excCode.toNat * 2 ^ 16 + st.cause.code.toNat * 2 ^ 8 + st.res.code.toNat := by
  simp only [Status.word, toNat_append_eq_add, BitVec.toNat_ofNat]
  omega

theorem toNat_lrcValue (sum : Byte) : (lrcValue sum).toNat = (0x100 - sum.toNat) % 0x100 := by simp [lrcValue]

theorem toNat_readReg_lrc (s : State) :
    (s.readReg .lrc).toNat = (0x100 - s.lrcSum.toNat) % 0x100 * 2 ^ 8 + s.lrcSum.toNat := by
  simp only [State.readReg, toNat_append_eq_add, BitVec.toNat_ofNat, toNat_lrcValue]
  omega

theorem toNat_readReg_req (s : State) : (s.readReg .req).toNat =
    s.req.mode.code.toNat * 2 ^ 16 + s.req.fc.toNat * 2 ^ 8 + s.req.slave.toNat := by
  simp only [State.readReg, toNat_append_eq_add, BitVec.toNat_ofNat]
  omega

/-- The two DELAY registers are the halves of the 64-bit field (R39). -/
theorem toNat_readReg_delay (s : State) :
    (s.readReg .delayHi).toNat * 2 ^ 32 + (s.readReg .delayLo).toNat = s.delayUs.toNat := by
  have := s.delayUs.isLt
  simp only [State.readReg, BitVec.extractLsb'_toNat, Nat.shiftRight_eq_div_pow]
  omega

theorem toNat_readReg_hdr1 (s : State) : (s.readReg .hdr1).toNat = s.hdr.unit.toNat * 2 ^ 16 + s.hdr.len.toNat := by
  simp only [State.readReg, toNat_append_eq_add, BitVec.toNat_ofNat]
  omega

/-- Settles O12: each offset is its register's, and the word of each register is the sum of its fields at their weights. -/
theorem registerReadValues : Obligations.RegisterReadValues := by
  intro s
  have hr (r : Reg) : (s.busRead32 r.offset).toNat = (s.readReg r).toNat := congrArg BitVec.toNat (busRead32_offset s r)
  have hw {n : Nat} (x : BitVec n) (h : n ≤ 32) : (x.setWidth 32).toNat = x.toNat := BitVec.toNat_setWidth_of_le h
  refine ⟨?_, ?_, ?_, ?_, ?_, ?_, ?_, ?_, ?_, ?_, ?_, ?_, ?_, ?_, ?_, ?_⟩
  · exact hr .cmd
  · exact (hr .status).trans (toNat_statusWord _)
  · exact (hr .crc).trans (hw _ (by decide))
  · exact (hr .lrc).trans (toNat_readReg_lrc s)
  · exact (hr .tid).trans (hw _ (by decide))
  · exact hr .baud
  · exact (hr .pduLen).trans (hw _ (by decide))
  · exact (hr .txLen).trans (hw _ (by decide))
  · exact (hr .rxLen).trans (hw _ (by decide))
  · exact (hr .rxExpect).trans (hw _ (by decide))
  · exact (hr .req).trans (toNat_readReg_req s)
  · exact (hr .reqTid).trans (hw _ (by decide))
  · exact (hr .predLen).trans (hw _ (by decide))
  · exact toNat_readReg_delay s
  · exact (hr .hdr0).trans (toNat_append_eq_add _ _)
  · exact (hr .hdr1).trans (toNat_readReg_hdr1 s)

/-! ### The named values (10_state.md R25, R33, 60_exceptions.md R252) -/

theorem res_iff_code (r : Res) :
    ∀ p ∈ [(Res.ok, 0), (.exception, 1), (.paramErr, 2), (.frameErr, 3), (.illegalCmd, 4)], r = p.1 ↔ r.code.toNat = p.2 := by
  cases r <;> decide

theorem cause_iff_code (c : Cause) :
    ∀ p ∈ [(Cause.none, 0x00), (.pduSize, 0x01), (.noRequest, 0x02), (.predShort, 0x03), (.predRange, 0x04),
      (.short, 0x10), (.badLength, 0x11), (.lengthMismatch, 0x12), (.badSize, 0x13), (.checksum, 0x14), (.noStart, 0x15),
      (.noEnd, 0x16), (.oddLength, 0x17), (.badHex, 0x18), (.tidMismatch, 0x19), (.pidMismatch, 0x1A),
      (.slaveMismatch, 0x1B), (.funcMismatch, 0x1C), (.emptyData, 0x1D), (.noFunc, 0x1E), (.excLength, 0x1F)],
      c = p.1 ↔ c.code.toNat = p.2 := by
  cases c <;> decide

theorem format_iff_code (m : Format) :
    ∀ p ∈ [(Format.none, 0), (.tcp, 1), (.rtu, 2), (.ascii, 3)], m = p.1 ↔ m.code.toNat = p.2 := by
  cases m <;> decide

/-- Settles O58: the bits of each code in the word read, then the table of the codes. -/
theorem namedValueCodes : Obligations.NamedValueCodes := by
  intro s
  have hst : (s.busRead32 0x004).toNat = _ := (congrArg BitVec.toNat (busRead32_offset s .status)).trans (toNat_statusWord _)
  have hrq : (s.busRead32 0x028).toNat = _ := (congrArg BitVec.toNat (busRead32_offset s .req)).trans (toNat_readReg_req s)
  have hres : (s.busRead32 0x004).toNat % 2 ^ 4 = s.status.res.code.toNat := by
    have := s.status.res.code.isLt
    omega
  have hcause : (s.busRead32 0x004).toNat / 2 ^ 8 % 2 ^ 8 = s.status.cause.code.toNat := by
    have := s.status.res.code.isLt; have := s.status.cause.code.isLt
    omega
  have hmode : (s.busRead32 0x028).toNat / 2 ^ 16 = s.req.mode.code.toNat := by
    have := s.req.fc.isLt; have := s.req.slave.isLt
    omega
  rw [hres, hcause, hmode]
  exact ⟨res_iff_code _, cause_iff_code _, format_iff_code _⟩

/-! ### Register writes and reset -/

/-- Settles O14: the offset is a register's, and each register's write is that of R31, R32, R36 and R63. -/
theorem registerWrites : Obligations.RegisterWrites := by
  intro s rest a v h hcmd ha h4
  obtain ⟨r, -, rfl⟩ := regAt_some a ha h4
  have hr : r ≠ .cmd := by rintro rfl; exact hcmd rfl
  have hp : v.setWidth 9 = BitVec.ofNat 9 (v.toNat % 512) := by apply BitVec.eq_of_toNat_eq; simp
  have hx : v.setWidth 10 = BitVec.ofNat 10 (v.toNat % 1024) := by apply BitVec.eq_of_toNat_eq; simp
  rw [writeReg_step hr h, ← hp, ← hx]
  cases r <;> rfl

/-- Settles O19: the state a served reset leaves lists no written byte. -/
theorem resetRedrawsTheBuffers : Obligations.ResetRedrawsTheBuffers := by
  intro s rest h
  exact ⟨_, step_serve h, rfl, rfl, fun _ => rfl⟩

end Sys2Proof.Machine
end

section
/-! Proofs of the invariant: every update a step is made of keeps `State.Inv`. -/

namespace Sys2Proof.Machine

/-! ### The clauses about `STATUS` -/

/-- The clauses of the invariant that speak of `STATUS` alone. -/
structure StatusInv (st : Status) : Prop where
  causeClass : st.cause.resClass = if st.res = .paramErr ∨ st.res = .frameErr then some st.res else none
  excCode : st.res ≠ .exception → st.excCode = 0
  excOp : st.res = .exception → st.lastOp = 0x23 ∨ st.lastOp = 0x32 ∨ st.lastOp = 0x41
  illegalOp : st.res = .illegalCmd → illegalOpcode st.lastOp = true

theorem statusInv_ok (op : Byte) : StatusInv ⟨.ok, .none, 0, op⟩ := by constructor <;> simp [Cause.resClass]

theorem statusInv_exception {op : Byte} (e : Byte) (h : op = 0x23 ∨ op = 0x32 ∨ op = 0x41) :
    StatusInv ⟨.exception, .none, e, op⟩ := ⟨by simp [Cause.resClass], by simp, fun _ => h, by simp⟩

theorem statusInv_illegal {op : Byte} (h : illegalOpcode op = true) : StatusInv ⟨.illegalCmd, .none, 0, op⟩ := by
  constructor <;> simp [Cause.resClass, h]

/-- A command that raises with a cause of the right class reports a proper `STATUS` (60_exceptions.md R252). -/
theorem statusInv_raise {e : CmdError} (s : State) (op : Byte) (h : e.proper) : StatusInv (s.raise op e).status := by
  cases e <;> simp only [CmdError.proper] at h <;> constructor <;> simp [h]

/-- `STATUS` may be replaced by any that meets its own clauses. -/
theorem State.Inv.withStatus {s : State} {st : Status} (hs : s.Inv) (h : StatusInv st) : State.Inv { s with status := st } :=
  { hs with causeClass := h.causeClass, excCode := h.excCode, excOp := h.excOp, illegalOp := h.illegalOp }

theorem State.Inv.completeOk {s : State} (hs : s.Inv) (op : Byte) : (s.complete op .ok 0).Inv := hs.withStatus (statusInv_ok op)

theorem State.Inv.raise {s : State} {e : CmdError} (hs : s.Inv) (op : Byte) (h : e.proper) : (s.raise op e).Inv := by
  have hr : s.raise op e = { s with status := (s.raise op e).status } := by cases e <;> rfl
  rw [hr]
  exact hs.withStatus (statusInv_raise s op h)

/-! ### The updates the commands make -/

/-- A frame of one of the formats in the transmit buffer (10_state.md R43). -/
theorem State.Inv.putTx {s : State} {f : List Byte} (hs : s.Inv) (h1 : 4 ≤ f.length) (h2 : f.length ≤ 513) : (s.putTx f).Inv :=
  { hs with memWf := wf_putTx hs.memWf h2, txLen := by simp; omega }

theorem State.Inv.putPdu {s : State} {p : List Byte} (hs : s.Inv) (h : p.length ≤ 253) : (s.putPdu p).Inv :=
  { hs with memWf := wf_putPdu hs.memWf h }

/-- TCP_ENCODE places the new transaction id in `TID` and in the context at once (43_tcp_mbap.md R172, R173). -/
theorem State.Inv.tcpRequest {s : State} (hs : s.Inv) (a fc : Byte) (tid : Half) :
    (State.latch { s with tid := tid } .tcp a fc tid).Inv :=
  { hs with noRequest := by simp, tcpTid := by simp, serialTid := by simp, rtuPredLen := by simp }

/-- RTU_ENCODE latches the context together with a prediction and a delay in range (44_rtu.md R202). -/
theorem State.Inv.rtuRequest {s : State} {p d : Nat} (hs : s.Inv) (a fc : Byte) (hp1 : 4 ≤ p) (hp2 : p ≤ 256) (hd : d < 2 ^ 33) :
    (State.latch { s with predLen := BitVec.ofNat 10 p, delayUs := BitVec.ofNat 64 d } .rtu a fc 0).Inv :=
  { hs with
    noRequest := by simp
    tcpTid := by simp
    serialTid := by simp
    predLen := .inr (by simp; omega)
    rtuPredLen := by simp; omega
    delayUs := by simp; omega }

theorem State.Inv.asciiRequest {s : State} (hs : s.Inv) (a fc : Byte) : (s.latch .ascii a fc 0).Inv :=
  { hs with noRequest := by simp, tcpTid := by simp, serialTid := by simp, rtuPredLen := by simp }

theorem State.Inv.withAccumulators {s : State} (hs : s.Inv) (c : Half) (l : Byte) : State.Inv { s with crcAcc := c, lrcSum := l } :=
  { hs with }

theorem State.Inv.withHdr {s : State} {hd : Header} (hs : s.Inv) (h : hd.len.toNat ≤ 254) : State.Inv { s with hdr := hd } :=
  { hs with hdrLen := h }

theorem State.Inv.withRxExpect {s : State} {n : BitVec 10} (hs : s.Inv) (h : 4 ≤ n.toNat ∧ n.toNat ≤ 260) :
    State.Inv { s with rxExpect := n } :=
  { hs with rxExpect := .inr h }

/-- The end of a client decode: the response PDU in its buffer, with a normal or an exception result (40_common.md R118). -/
theorem classifyAndFinish_keeps_inv {op : Byte} {s t : State} {rsp : List Byte} (hs : s.Inv)
    (hop : op = 0x23 ∨ op = 0x32 ∨ op = 0x41) (hl : rsp.length ≤ 253) (h : classifyAndFinish op s rsp = .ok t) : t.Inv := by
  rcases classifyAndFinish_cases h with ⟨rfl, -⟩ | ⟨e, rfl, -⟩
  · exact (hs.putPdu hl).completeOk op
  · exact (hs.putPdu hl).withStatus (statusInv_exception e hop)

/-! ### Every command, every event -/

/-- A command that does not raise keeps the invariant. -/
theorem body_keeps_inv {i : Instr} {s t : State} (hs : s.Inv) (h : body i s = .ok t) : t.Inv := by
  cases i <;> simp only [body] at h
  case crcInit => cases h; exact (hs.withAccumulators crcInitVal s.lrcSum).completeOk _
  case crcByte => cases h; exact (hs.withAccumulators (crcFold s.crcAcc _) s.lrcSum).completeOk _
  case lrcReset => cases h; exact (hs.withAccumulators s.crcAcc 0).completeOk _
  case lrcPush => cases h; exact (hs.withAccumulators s.crcAcc (lrcAdd s.lrcSum _)).completeOk _
  case tcpEncode =>
    obtain ⟨h1, h2, rfl⟩ := tcpEncode_ok h
    exact ((hs.putTx (by simp; omega) (by simp; omega)).tcpRequest _ _ _).completeOk _
  case tcpReply =>
    obtain ⟨h1, h2, rfl⟩ := tcpReply_ok h
    exact (hs.putTx (by simp; omega) (by simp; omega)).completeOk _
  case mbapParse =>
    obtain ⟨-, h1, h2, rfl⟩ := mbapParse_ok h
    exact ((hs.withHdr h2).withRxExpect (by simp; omega)).completeOk _
  case tcpDecode =>
    obtain ⟨-, -, h2, -, hc⟩ := tcpDecode_ok h
    exact classifyAndFinish_keeps_inv hs (by simp) (by simp [State.rxSlice]; omega) hc
  case tcpSplit =>
    obtain ⟨-, h2, -, rfl⟩ := tcpSplit_ok h
    exact ((hs.withHdr h2).putPdu (by simp [State.rxSlice]; omega)).completeOk _
  case rtuEncode =>
    obtain ⟨h1, h2, p, hp, rfl⟩ := rtuEncode_ok h
    obtain ⟨hp1, hp2⟩ := rtuPredict_range hp
    have hd : rtuDelay s.baud.toNat (s.pdu.length + 3 + p) < 2 ^ 33 := rtuDelay_lt _ _ (by simp; omega)
    exact ((hs.putTx (by simpa using h1) (by simp; omega)).rtuRequest _ _ hp1 hp2 hd).completeOk _
  case rtuRxlen =>
    obtain ⟨hm, -, e, he, rfl⟩ := rtuRxlen_ok h
    obtain ⟨hp1, hp2⟩ := hs.rtuPredLen hm
    refine State.Inv.completeOk (hs.withRxExpect ?_) _
    rcases he with ⟨rfl, -⟩ | rfl
    · exact ⟨hp1, by omega⟩
    · decide
  case rtuDecode =>
    obtain ⟨-, -, h2, hc⟩ := rtuDecode_ok h
    exact classifyAndFinish_keeps_inv hs (by simp) (by simp [State.rxSlice]; omega) hc
  case asciiEncode =>
    obtain ⟨h1, h2, rfl⟩ := asciiEncode_ok h
    exact ((hs.putTx (by simp) (by simp; omega)).asciiRequest _ _).completeOk _
  case asciiDecode =>
    obtain ⟨-, rsp, hl, hc⟩ := asciiDecode_ok h
    exact classifyAndFinish_keeps_inv hs (by simp) (by omega) hc

theorem exec_keeps_inv {i : Instr} {s t : State} (hs : s.Inv) (h : exec i s = .next t) : t.Inv := by
  rcases exec_cases h with hb | ⟨e, hb, rfl⟩
  · exact body_keeps_inv hs hb
  · exact hs.raise _ (body_error hb)

theorem runCommand_keeps_inv {w : Word} {s t : State} (hs : s.Inv) (h : runCommand w s = .next t) : t.Inv := by
  rcases runCommand_cases h with ⟨i, -, hi⟩ | ⟨hop, rfl⟩
  · exact exec_keeps_inv hs hi
  · exact hs.withStatus (statusInv_illegal hop)

theorem State.Inv.writeWindowByte {s : State} (hs : s.Inv) (a : Nat) (b : Byte) : (s.writeWindowByte a b).Inv := by
  rw [writeWindowByte_eq]
  exact { hs with memWf := wf_writeWindowByte a b hs.memWf }

theorem State.Inv.writeReg {s : State} (hs : s.Inv) (r : Reg) (v : Word) : (s.writeReg r v).Inv := by
  cases r <;> exact { hs with }

theorem State.Inv.busWrite32 {s : State} (hs : s.Inv) (a : Addr) (v : Word) : (s.busWrite32 a v).Inv := by
  unfold State.busWrite32
  split
  · exact hs.writeReg _ v
  · exact (((hs.writeWindowByte _ _).writeWindowByte _ _).writeWindowByte _ _).writeWindowByte _ _

theorem State.Inv.answer {s : State} (hs : s.Inv) (r : Response) : (s.answer r).Inv := { hs with }

theorem reset_inv : State.reset.Inv := by constructor <;> decide

theorem serve_keeps_inv {e : Event} {s t : State} (hs : s.Inv) (h : serve e s = .next t) : t.Inv := by
  rcases serve_cases h with ⟨a, -, -, rfl⟩ | ⟨a, b, -, -, rfl⟩ | ⟨a, -, -, rfl⟩ | ⟨a, v, -, -, -, rfl⟩ | ⟨w, -, hw⟩ | ⟨-, rfl⟩
  · exact hs.answer _
  · exact (hs.writeWindowByte _ b).answer _
  · exact hs.answer _
  · exact (hs.busWrite32 a v).answer _
  · exact runCommand_keeps_inv (hs.answer _) hw
  · exact { reset_inv with }

/-- Settles O57: the invariant survives each update a step is made of, first of `exec`, then of every event served. -/
theorem stepKeepsTheInvariant : Obligations.StepKeepsTheInvariant := by
  intro s t hs h
  cases hp : s.pending with
  | nil =>
    rw [step_idle hp] at h
    cases h
    exact hs
  | cons e rest =>
    rw [step_serve hp] at h
    exact serve_keeps_inv (s := { s with pending := rest }) { hs with } h

end Sys2Proof.Machine
end

section
/-! Proofs about what a command reads: never `STATUS`, and of a receive count above the buffer what its bound checks say. -/

namespace Sys2Proof.Machine

/-- Settles O22: no body reads `STATUS`, and an error overwrites all of it. -/
theorem noCommandReadsStatus : Obligations.NoCommandReadsStatus := by
  intro i s st
  rw [exec_eq_settle, exec_eq_settle, body_status]
  cases body i s with
  | ok t => rfl
  | error e => cases e <;> rfl

/-! ### Receive counts (10_state.md R36, 43_tcp_mbap.md R175, R176, 44_rtu.md R208) -/

/-- MBAP_PARSE checks the receive count for its lower bound only (log 8). -/
theorem mbapParse_outcome {s : State} (h : 7 ≤ s.rxLen.toNat) : MbapParseOutcome s := by
  refine ⟨fun hl => failsWith_of_body ?_, fun h1 h2 => ?_⟩
  · rw [← rxHeader_len] at hl
    rw [body, mbapParse_eq, mbapHeader_badLength h hl]
    rfl
  · rw [exec_eq_settle, body, mbapParse_eq, mbapHeader_ok h (by rwa [rxHeader_len]) (by rwa [rxHeader_len]), ← rxHeader_eq,
      ← rxHeader_len]
    rfl

/-- RTU_RXLEN checks the receive count for its lower bound only (log 8). -/
theorem rtuRxlen_outcome {s : State} (hm : s.req.mode = .rtu) (h : 4 ≤ s.rxLen.toNat) : RtuRxlenOutcome s := by
  have hb : body .rtuRxlen s = if s.rx 1 = s.req.fc then .ok (State.complete 0x31 .ok 0 { s with rxExpect := s.predLen })
      else if s.rx 1 = s.req.fc ||| 0x80 then .ok (State.complete 0x31 .ok 0 { s with rxExpect := 5 })
      else .error (.frame .funcMismatch) := by
    rw [body, rtuRxlen, if_neg (not_not.2 hm), if_neg (by simp only [rtuMin]; omega)]
    rfl
  refine ⟨fun h1 => ?_, fun h1 h2 => ?_, fun h1 h2 => failsWith_of_body ?_⟩
  · rw [exec_eq_settle, hb, if_pos h1]
    rfl
  · rw [exec_eq_settle, hb, if_neg h1, if_pos h2]
    rfl
  · rw [hb, if_neg h1, if_neg h2]

/-- A count above the longest TCP frame fails the header's length check, or cannot equal `6 + H_LEN` (R175, R178, R180). -/
theorem mbapHeader_above {s : State} (h : 513 < s.rxLen.toNat) :
    mbapHeader s = .error (.frame .badLength) ∨ ∃ hd, mbapHeader s = .ok hd ∧ s.rxLen.toNat ≠ 6 + hd.len.toNat := by
  by_cases hl : (rxHeader s).len.toNat = 0 ∨ 254 < (rxHeader s).len.toNat
  · exact .inl (mbapHeader_badLength (by omega) hl)
  · exact .inr ⟨_, mbapHeader_ok (by omega) (by omega) (by omega), by omega⟩

/-- The two ways the statement lets a command fail on a receive count above the buffer. -/
theorem failsAbove_of_body {i : Instr} {s : State}
    (h : body i s = .error (.param .noRequest) ∨
      ∃ c ∈ [Cause.badLength, .lengthMismatch, .badSize], body i s = .error (.frame c)) :
    FailsWith i s .paramErr .noRequest ∨ ∃ c ∈ [Cause.badLength, .lengthMismatch, .badSize], FailsWith i s .frameErr c :=
  h.imp failsWith_of_body_param fun ⟨c, hc, hb⟩ => ⟨c, hc, failsWith_of_body hb⟩

/-- Settles O59: each upper bound is below 513, and the two commands without one are the lemmas above. -/
theorem receiveCommandsAboveTheBuffer : Obligations.ReceiveCommandsAboveTheBuffer := by
  intro s h
  refine ⟨fun i hi => failsAbove_of_body ?_, mbapParse_outcome (by omega), fun hm => rtuRxlen_outcome hm (by omega)⟩
  simp only [List.mem_cons, List.not_mem_nil, or_false] at hi
  rcases hi with rfl | rfl | rfl | rfl
  · by_cases hm : s.req.mode = .tcp
    · rcases mbapHeader_above h with hb | ⟨hd, hb, hl⟩
      · exact .inr ⟨.badLength, by simp, by simp [body, tcpDecode, hm, hb]⟩
      · exact .inr ⟨.lengthMismatch, by simp, by simp [body, tcpDecode, hm, hb, hl]⟩
    · exact .inl (by simp [body, tcpDecode, hm])
  · rcases mbapHeader_above h with hb | ⟨hd, hb, hl⟩
    · exact .inr ⟨.badLength, by simp, by simp [body, tcpSplit, hb]⟩
    · exact .inr ⟨.lengthMismatch, by simp, by simp [body, tcpSplit, hb, hl]⟩
  · by_cases hm : s.req.mode = .rtu
    · have hl : s.rxLen.toNat < rtuMin ∨ s.rxLen.toNat > rtuMax := .inr (by simp only [rtuMax]; omega)
      exact .inr ⟨.badSize, by simp, by simp [body, rtuDecode, hm, hl]⟩
    · exact .inl (by simp [body, rtuDecode, hm])
  · by_cases hm : s.req.mode = .ascii
    · have hl : s.rxLen.toNat < asciiMinChars ∨ s.rxLen.toNat > asciiMaxChars := .inr (by simp only [asciiMaxChars]; omega)
      exact .inr ⟨.badSize, by simp, by simp [body, asciiDecode, hm, hl]⟩
    · exact .inl (by simp [body, asciiDecode, hm])

end Sys2Proof.Machine
end

section
/-! Proofs about what a frame command reads (10_state.md R50): from two states that agree on its inputs it ends in the same way. -/

namespace Sys2Proof.Machine

/-! ### What two states that agree on the inputs read alike -/

section
variable {s t : State}

theorem FrameInputsAgree.pdu_eq (h : FrameInputsAgree s t) (hl : s.pduLen.toNat ≤ 253) : t.pdu = s.pdu := by
  rw [State.pdu, h.pduLen]
  exact bytes_congr fun i hi => h.pduBytes i (by simp only [pduSize]; omega)

theorem FrameInputsAgree.checkPdu_eq (h : FrameInputsAgree s t) : checkPdu t = checkPdu s := by
  by_cases hl : 1 ≤ s.pduLen.toNat ∧ s.pduLen.toNat ≤ 253
  · rw [checkPdu_ok hl.1 hl.2, checkPdu_ok (by rw [h.pduLen]; exact hl.1) (by rw [h.pduLen]; exact hl.2), h.pdu_eq hl.2]
  · rw [checkPdu_error hl, checkPdu_error (by rw [h.pduLen]; exact hl)]

theorem FrameInputsAgree.rx_eq (h : FrameInputsAgree s t) {i : Nat} (hi : i < 513) : t.rx i = s.rx i := h.rxBytes i hi

theorem FrameInputsAgree.rxSlice_eq (h : FrameInputsAgree s t) (i : Nat) {j : Nat} (hj : j ≤ 513) : t.rxSlice i j = s.rxSlice i j :=
  bytes_congr fun k hk => by rw [Nat.add_assoc]; exact h.rxBytes (i + k) (by simp only [rxSize]; omega)

theorem FrameInputsAgree.mbapHeader_eq (h : FrameInputsAgree s t) : mbapHeader t = mbapHeader s := by
  simp [mbapHeader, h.rxLen, h.rx_eq]

/-! ### The updates that keep the agreement -/

theorem FrameInputsAgree.raise (h : FrameInputsAgree s t) (op : Byte) (e : CmdError) :
    FrameInputsAgree (s.raise op e) (t.raise op e) := by
  cases e <;> exact { h with }

theorem FrameInputsAgree.withHdr (h : FrameInputsAgree s t) (hd : Header) :
    FrameInputsAgree { s with hdr := hd } { t with hdr := hd } := { h with }

theorem FrameInputsAgree.complete (h : FrameInputsAgree s t) (op : Byte) (r : Res) (e : Byte) :
    FrameInputsAgree (s.complete op r e) (t.complete op r e) := { h with }

theorem FrameInputsAgree.latch (h : FrameInputsAgree s t) (m : Format) (sl fc : Byte) (tid : Half) :
    FrameInputsAgree (s.latch m sl fc tid) (t.latch m sl fc tid) := { h with req := rfl }

/-- The transmit buffer is no input. -/
theorem FrameInputsAgree.putTx (h : FrameInputsAgree s t) {f : List Byte} (hf : f.length ≤ 513) :
    FrameInputsAgree (s.putTx f) (t.putTx f) := by
  have hout {u : State} {x : Nat} (hx : ¬ (0x400 ≤ x ∧ x < 0x400 + f.length)) : (u.putTx f).byteAt x = u.byteAt x :=
    (putTx_frame rfl rfl).2 x hx
  refine { h with pduBytes := fun x hx => ?_, rxBytes := fun x hx => ?_ }
  · simp only [pduSize] at hx
    rw [hout (by simp only [pduBase]; omega), hout (by simp only [pduBase]; omega)]
    exact h.pduBytes x hx
  · rw [hout (by simp only [rxBase]; omega), hout (by simp only [rxBase]; omega)]
    exact h.rxBytes x hx

/-- Both PDU buffers hold the PDU that was written. -/
theorem FrameInputsAgree.putPdu (h : FrameInputsAgree s t) {p : List Byte} (hp : p.length ≤ 253) :
    FrameInputsAgree (s.putPdu p) (t.putPdu p) := by
  have hin (u : State) : (u.putPdu p).bytes 0x100 p.length = p := (putPdu_frame (s := u) rfl rfl).1
  have hout {u : State} {x : Nat} (hx : ¬ (0x100 ≤ x ∧ x < 0x100 + p.length)) : (u.putPdu p).byteAt x = u.byteAt x :=
    (putPdu_frame rfl rfl).2 x hx
  refine { h with pduLen := rfl, pduBytes := fun x hx => ?_, rxBytes := fun x hx => ?_ }
  · by_cases hx' : x < p.length
    · exact ((bytes_eq_iff _ _ _).1 (hin t) x hx').trans ((bytes_eq_iff _ _ _).1 (hin s) x hx').symm
    · rw [hout (by simp only [pduBase]; omega), hout (by simp only [pduBase]; omega)]
      exact h.pduBytes x hx
  · rw [hout (by simp only [rxBase]; omega), hout (by simp only [rxBase]; omega)]
    exact h.rxBytes x hx

end

/-! ### Ends that agree -/

/-- Every result that the frame command `i` writes on success is the same in the two states. -/
def SameResults (i : Instr) (u v : State) : Prop :=
  match i with
  | .tcpEncode _ => u.txLen = v.txLen ∧ u.txFrame = v.txFrame
  | .tcpReply _ _ => u.txLen = v.txLen ∧ u.txFrame = v.txFrame
  | .rtuEncode _ => (u.txLen = v.txLen ∧ u.txFrame = v.txFrame) ∧ u.delayUs = v.delayUs
  | .asciiEncode _ => u.txLen = v.txLen ∧ u.txFrame = v.txFrame
  | .mbapParse => u.hdr = v.hdr ∧ u.rxExpect = v.rxExpect
  | .tcpSplit => u.hdr = v.hdr
  | .rtuRxlen => u.rxExpect = v.rxExpect
  | .tcpDecode => True
  | .rtuDecode => True
  | .asciiDecode => True
  | .crcInit => True
  | .crcByte _ => True
  | .lrcReset => True
  | .lrcPush _ => True

/-- Two bodies of `i` that raise the same error, or succeed with the same status and results, their inputs still agreeing. -/
inductive SameEnd (i : Instr) : Except CmdError State → Except CmdError State → Prop
  | error (e : CmdError) : SameEnd i (.error e) (.error e)
  | ok {u v : State} (hst : u.status = v.status) (hin : FrameInputsAgree u v) (hres : SameResults i u v) : SameEnd i (.ok u) (.ok v)

/-- Two bodies that branch alike end alike if their branches do. -/
theorem SameEnd.ite {i : Instr} {c c' : Prop} [Decidable c] [Decidable c'] {x x' y y' : Except CmdError State}
    (hc : c' ↔ c) (hx : c → SameEnd i x x') (hy : ¬ c → SameEnd i y y') :
    SameEnd i (if c then x else y) (if c' then x' else y') := by
  by_cases h : c
  · rw [if_pos h, if_pos (hc.2 h)]
    exact hx h
  · rw [if_neg h, if_neg (mt hc.1 h)]
    exact hy h

/-- Two bodies that make the same check go on alike. -/
theorem SameEnd.check {i : Instr} {c c' : Prop} [Decidable c] [Decidable c'] {e : CmdError} {x y : Except CmdError State}
    (hc : c' ↔ c) (h : ¬ c → SameEnd i x y) : SameEnd i (if c then .error e else x) (if c' then .error e else y) :=
  .ite hc (fun _ => .error e) h

/-- A frame in the transmit buffer is what the host then sends (10_state.md R43). -/
theorem txFrame_of_writeRun {s u : State} {f : List Byte} (hm : u.mem = s.mem.writeRun txBase f)
    (hn : u.txLen = BitVec.ofNat 10 f.length) (hf : f.length ≤ 513) : u.txFrame = f := by
  have hl : u.txLen.toNat = f.length := by rw [hn, BitVec.toNat_ofNat]; omega
  rw [State.txFrame, hl]
  exact bytes_writeRun_same hm

/-- Two states into which the same frame has been put send the same. -/
theorem sameTx_of_writeRun (s t : State) {u v : State} {f : List Byte} (hf : f.length ≤ 513)
    (hu : u.mem = s.mem.writeRun txBase f) (hv : v.mem = t.mem.writeRun txBase f)
    (hul : u.txLen = BitVec.ofNat 10 f.length) (hvl : v.txLen = BitVec.ofNat 10 f.length) :
    u.txLen = v.txLen ∧ u.txFrame = v.txFrame :=
  ⟨hul.trans hvl.symm, (txFrame_of_writeRun hu hul hf).trans (txFrame_of_writeRun hv hvl hf).symm⟩

/-- The end of a client decode whose response PDU and function code are the same (40_common.md R115, R118). -/
theorem classifyAndFinish_sameEnd {i : Instr} {s t : State} {rsp : List Byte} {op : Byte} (h : FrameInputsAgree s t)
    (hl : rsp.length ≤ 253) (hi : ∀ u v, SameResults i u v) :
    SameEnd i (classifyAndFinish op s rsp) (classifyAndFinish op t rsp) := by
  simp only [classifyAndFinish, h.req]
  cases classify s.req.fc rsp with
  | error e => exact .error e
  | ok v => cases v <;> exact .ok rfl ((h.putPdu hl).complete _ _ _) (hi _ _)

/-! ### Each frame command -/

section
variable {s t : State} (h : FrameInputsAgree s t)
include h

theorem tcpEncode_sameEnd (a : Byte) : SameEnd (.tcpEncode a) (tcpEncode a s) (tcpEncode a t) := by
  unfold tcpEncode
  rw [h.checkPdu_eq, h.tid]
  rcases checkPdu_cases s with ⟨h1, h2, hc⟩ | hc <;> rw [hc]
  · have hf : (tcpFrame (s.tid + 1) a s.pdu).length ≤ 513 := by simp; omega
    exact .ok rfl { h.putTx hf with tid := rfl, req := rfl } (sameTx_of_writeRun s t hf rfl rfl rfl rfl)
  · exact .error _

theorem tcpReply_sameEnd (a : Byte) (tid : Half) : SameEnd (.tcpReply a tid) (tcpReply a tid s) (tcpReply a tid t) := by
  unfold tcpReply
  rw [h.checkPdu_eq]
  rcases checkPdu_cases s with ⟨h1, h2, hc⟩ | hc <;> rw [hc]
  · have hf : (tcpFrame tid a s.pdu).length ≤ 513 := by simp; omega
    exact .ok rfl ((h.putTx hf).complete _ _ _) (sameTx_of_writeRun s t hf rfl rfl rfl rfl)
  · exact .error _

theorem rtuEncode_sameEnd (a : Byte) : SameEnd (.rtuEncode a) (rtuEncode a s) (rtuEncode a t) := by
  unfold rtuEncode
  rw [h.checkPdu_eq, h.baud]
  rcases checkPdu_cases s with ⟨h1, h2, hc⟩ | hc <;> rw [hc]
  · dsimp only
    cases rtuPredict s.pdu with
    | error e => exact .error e
    | ok p =>
      have hf : (rtuFrame a s.pdu).length ≤ 513 := by simp; omega
      exact .ok rfl { h.putTx hf with predLen := rfl, req := rfl } ⟨sameTx_of_writeRun s t hf rfl rfl rfl rfl, rfl⟩
  · exact .error _

theorem asciiEncode_sameEnd (a : Byte) : SameEnd (.asciiEncode a) (asciiEncode a s) (asciiEncode a t) := by
  unfold asciiEncode
  rw [h.checkPdu_eq]
  rcases checkPdu_cases s with ⟨h1, h2, hc⟩ | hc <;> rw [hc]
  · have hf : (asciiFrame a s.pdu).length ≤ 513 := by simp; omega
    exact .ok rfl (((h.putTx hf).latch _ _ _ _).complete _ _ _) (sameTx_of_writeRun s t hf rfl rfl rfl rfl)
  · exact .error _

theorem mbapParse_sameEnd : SameEnd .mbapParse (mbapParse s) (mbapParse t) := by
  rw [mbapParse_eq, mbapParse_eq, h.mbapHeader_eq]
  cases mbapHeader s with
  | error e => exact .error e
  | ok hd => exact .ok rfl { h with } ⟨rfl, rfl⟩

theorem tcpSplit_sameEnd : SameEnd .tcpSplit (tcpSplit s) (tcpSplit t) := by
  unfold tcpSplit
  rw [h.mbapHeader_eq]
  rcases mbapHeader_cases s with ⟨-, -, h2, hc⟩ | hc | hc <;> rw [hc]
  · refine .check (by rw [h.rxLen]) fun _ => .check .rfl fun _ => ?_
    rw [h.rxSlice_eq 7 (by omega)]
    have hl : (s.rxSlice 7 (6 + (rxHeader s).len.toNat)).length ≤ 253 := by simp [State.rxSlice]; omega
    exact .ok rfl (((h.withHdr _).putPdu hl).complete _ _ _) rfl
  · exact .error _
  · exact .error _

theorem tcpDecode_sameEnd : SameEnd .tcpDecode (tcpDecode s) (tcpDecode t) := by
  unfold tcpDecode
  rw [h.mbapHeader_eq]
  refine .check (by rw [h.req]) fun _ => ?_
  rcases mbapHeader_cases s with ⟨-, -, h2, hc⟩ | hc | hc <;> rw [hc]
  · refine .check (by rw [h.rxLen]) fun _ => .check (by rw [h.req]) fun _ => .check .rfl fun _ =>
      .check (by rw [h.req]) fun _ => .check .rfl fun _ => ?_
    rw [h.rxSlice_eq 7 (by omega)]
    exact classifyAndFinish_sameEnd h (by simp [State.rxSlice]; omega) fun _ _ => trivial
  · exact .error _
  · exact .error _

theorem rtuRxlen_sameEnd : SameEnd .rtuRxlen (rtuRxlen s) (rtuRxlen t) := by
  have hrx : t.rx 1 = s.rx 1 := h.rx_eq (by decide)
  unfold rtuRxlen
  refine .check (by rw [h.req]) fun _ => .check (by rw [h.rxLen]) fun _ => ?_
  refine .ite (by rw [hrx, h.req]) (fun _ => .ok rfl { h with } h.predLen.symm) fun _ => ?_
  exact .ite (by rw [hrx, h.req]) (fun _ => .ok rfl { h with } rfl) fun _ => .error _

theorem rtuDecode_sameEnd : SameEnd .rtuDecode (rtuDecode s) (rtuDecode t) := by
  unfold rtuDecode
  simp only [h.rxLen, h.req, h.rx_eq (show 0 < 513 by decide)]
  refine .check .rfl fun _ => .check .rfl fun hl => ?_
  simp only [rtuMin, rtuMax] at hl
  rw [h.rxSlice_eq 0 (by omega), h.rxSlice_eq 1 (by omega), h.rx_eq (by omega), h.rx_eq (by omega)]
  refine .check .rfl fun _ => .check .rfl fun _ => ?_
  exact classifyAndFinish_sameEnd h (by simp [State.rxSlice]; omega) fun _ _ => trivial

theorem asciiDecodeBytes_sameEnd {d : List Byte} (hd : d.length ≤ 255) :
    SameEnd .asciiDecode (asciiDecodeBytes s d) (asciiDecodeBytes t d) := by
  simp only [asciiDecodeBytes, h.req]
  refine .check .rfl fun _ => .check .rfl fun _ => ?_
  exact classifyAndFinish_sameEnd h (by simp; omega) fun _ _ => trivial

theorem asciiDecode_sameEnd : SameEnd .asciiDecode (asciiDecode s) (asciiDecode t) := by
  unfold asciiDecode
  simp only [h.rxLen, h.req, h.rx_eq (show 0 < 513 by decide)]
  refine .check .rfl fun _ => .check .rfl fun hl => .check .rfl fun _ => ?_
  simp only [asciiMinChars, asciiMinBytes, asciiMaxChars] at hl
  rw [h.rxSlice_eq 1 (by omega), h.rx_eq (by omega), h.rx_eq (by omega)]
  refine .check .rfl fun _ => .check .rfl fun _ => ?_
  cases hu : unhex (s.rxSlice 1 (s.rxLen.toNat - 2)) with
  | none => exact .error _
  | some d =>
    have := unhex_length hu
    simp only [State.rxSlice, length_bytes] at this
    exact asciiDecodeBytes_sameEnd h (by omega)

theorem body_sameEnd {i : Instr} (hi : isFrameCommand i) : SameEnd i (body i s) (body i t) := by
  cases i with
  | crcInit | crcByte | lrcReset | lrcPush => simp [isFrameCommand, Instr.opcode] at hi
  | tcpEncode a => exact tcpEncode_sameEnd h a
  | tcpReply a tid => exact tcpReply_sameEnd h a tid
  | mbapParse => exact mbapParse_sameEnd h
  | tcpDecode => exact tcpDecode_sameEnd h
  | tcpSplit => exact tcpSplit_sameEnd h
  | rtuEncode a => exact rtuEncode_sameEnd h a
  | rtuRxlen => exact rtuRxlen_sameEnd h
  | rtuDecode => exact rtuDecode_sameEnd h
  | asciiEncode a => exact asciiEncode_sameEnd h a
  | asciiDecode => exact asciiDecode_sameEnd h

end

/-- `SameResults` by opcode, as the statement lists the results. -/
theorem SameResults.byOpcode {i : Instr} {u v : State} (h : SameResults i u v) :
    (i.opcode ∈ ([0x20, 0x21, 0x30, 0x40] : List Byte) → u.txLen = v.txLen ∧ u.txFrame = v.txFrame) ∧
    (i.opcode ∈ ([0x22, 0x24] : List Byte) → u.hdr = v.hdr) ∧
    (i.opcode ∈ ([0x22, 0x31] : List Byte) → u.rxExpect = v.rxExpect) ∧
    (i.opcode = 0x30 → u.delayUs = v.delayUs) := by
  cases i <;> simp only [SameResults] at h <;> simp [Instr.opcode, h]

/-- Settles O24: the bodies end alike, and an error leaves the inputs as they were. -/
theorem frameCommandsReadOnlyTheirInputs : Obligations.FrameCommandsReadOnlyTheirInputs := by
  intro i s t s' t' hi h hs ht
  have hb := body_sameEnd h hi
  rw [exec_eq_settle] at hs ht
  generalize body i s = x at hb hs
  generalize body i t = y at hb ht
  cases hb with
  | error e =>
    obtain rfl := Host.Outcome.next.inj hs
    obtain rfl := Host.Outcome.next.inj ht
    refine ⟨by cases e <;> rfl, h.raise _ e, fun hok => ?_⟩
    cases e <;> simp at hok
  | ok hst hin hres =>
    obtain rfl := Host.Outcome.next.inj hs
    obtain rfl := Host.Outcome.next.inj ht
    exact ⟨hst, hin, fun _ => hres.byOpcode⟩

end Sys2Proof.Machine
end

section
/-! Proofs about the host's bus accesses: which stop the block, and what a 32-bit access to a buffer window moves (20_memory.md R64, R65). -/

namespace Sys2Proof.Machine

/-! ### Legal and illegal accesses (20_memory.md R64, 92_eei_decisions.md D43) -/

/-- A legal access is served: no command stops, and every other access answers at once (40_common.md R110, 60_exceptions.md R250). -/
theorem serve_of_legal {e : Event} (s : State) (h : e.legal = true) : ∃ t, serve e s = .next t := by
  cases e <;> simp only [serve]
  case read8 a => exact ⟨_, if_pos h⟩
  case write8 a b => exact ⟨_, if_pos h⟩
  case read32 a => exact ⟨_, if_pos h⟩
  case write32 a v =>
    split
    · exact runCommand_total v _
    · exact ⟨_, if_pos h⟩
  case reset => exact ⟨_, rfl⟩

/-- An illegal access is a bus error; a write to `CMD`, which is served apart, is legal. -/
theorem serve_of_illegal {e : Event} (s : State) (h : ¬ e.legal = true) : serve e s = .fault (.busError e) := by
  cases e <;> simp only [serve]
  case read8 a => exact if_neg h
  case write8 a b => exact if_neg h
  case read32 a => exact if_neg h
  case write32 a v =>
    have hcmd : a ≠ Reg.offset .cmd := by rintro rfl; exact h rfl
    rw [if_neg hcmd]
    exact if_neg h
  case reset => exact absurd rfl h

theorem serve_eq_busError_iff {e : Event} {s : State} : serve e s = .fault (.busError e) ↔ ¬ e.legal = true := by
  refine ⟨fun hf hl => ?_, serve_of_illegal s⟩
  obtain ⟨t, ht⟩ := serve_of_legal s hl
  rw [hf] at ht
  cases ht

theorem step_eq_busError_iff {s : State} {e : Event} {rest : List Event} (h : s.pending = e :: rest) :
    step s = .fault (.busError e) ↔ ¬ e.legal = true := by
  rw [step_serve h, serve_eq_busError_iff]

/-! ### The accesses still to come (log 1) -/

theorem runCommand_pending {w : Word} {s t : State} (h : runCommand w s = .next t) : t.pending = s.pending := by
  rcases runCommand_cases h with ⟨i, -, hi⟩ | ⟨-, rfl⟩
  · exact (exec_keeps hi).1
  · rfl

@[simp] theorem writeWindowByte_pending (s : State) (a : Nat) (b : Byte) : (s.writeWindowByte a b).pending = s.pending := by
  rw [writeWindowByte_eq]

@[simp] theorem writeReg_pending (s : State) (r : Reg) (v : Word) : (s.writeReg r v).pending = s.pending := by cases r <;> rfl

@[simp] theorem busWrite32_pending (s : State) (a : Addr) (v : Word) : (s.busWrite32 a v).pending = s.pending := by
  unfold State.busWrite32
  split <;> simp [State.writeWindowWord]

/-- Serving an event neither adds an access nor drops one. -/
theorem serve_pending {e : Event} {s t : State} (h : serve e s = .next t) : t.pending = s.pending := by
  rcases serve_cases h with ⟨a, -, -, rfl⟩ | ⟨a, b, -, -, rfl⟩ | ⟨a, -, -, rfl⟩ | ⟨a, v, -, -, -, rfl⟩ | ⟨w, -, hw⟩ | ⟨-, rfl⟩
  · rfl
  · exact writeWindowByte_pending s _ b
  · rfl
  · exact busWrite32_pending s a v
  · exact (runCommand_pending hw).trans (answer_pending s _)
  · rfl

/-- Settles O9: the access served is legal, so it is answered, and those left were already in the list. -/
theorem legalInputsNeverStopTheBlock : Obligations.LegalInputsNeverStopTheBlock := by
  intro s h
  cases hp : s.pending with
  | nil => exact ⟨s, step_idle hp, h⟩
  | cons e rest =>
    obtain ⟨he, hrest⟩ := List.forall_mem_cons.1 (hp ▸ h : ∀ x ∈ e :: rest, x.legal = true)
    obtain ⟨t, ht⟩ := serve_of_legal { s with pending := rest } he
    refine ⟨t, (step_serve hp).trans ht, ?_⟩
    rw [State.LegalInputs, serve_pending ht]
    exact hrest

/-- Settles O10: a step faults exactly on an illegal access, and the legal offsets are the ranges of R64. -/
theorem busErrorsAreExactlyTheIllegalAccesses : Obligations.BusErrorsAreExactlyTheIllegalAccesses := by
  intro s rest a v b
  refine ⟨fun h => ?_, fun h => ?_, fun h => ?_, fun h => ?_⟩
  · exact (step_eq_busError_iff h).trans (not_congr (legal8_iff a))
  · exact (step_eq_busError_iff h).trans (not_congr (legal8_iff a))
  · exact (step_eq_busError_iff h).trans (not_congr (legal32_iff a))
  · exact (step_eq_busError_iff h).trans (not_congr (legal32_iff a))

/-! ### Words of the buffer windows (20_memory.md R65) -/

theorem toNat_busRead8 (s : State) (a : Addr) : (s.busRead8 a).toNat = (s.windowByte a.toNat).toNat :=
  BitVec.toNat_setWidth_of_le (by decide)

theorem toNat_windowWord (s : State) (a : Nat) : (s.windowWord a).toNat = (s.windowByte a).toNat +
    (s.windowByte (a + 1)).toNat * 2 ^ 8 + (s.windowByte (a + 2)).toNat * 2 ^ 16 + (s.windowByte (a + 3)).toNat * 2 ^ 24 := by
  simp only [State.windowWord, toNat_append_eq_add]
  omega

/-- Above the register range a 32-bit access is one of the buffer windows. -/
theorem busRead32_window (s : State) {a : Addr} (h : 0x43 < a.toNat) : s.busRead32 a = s.windowWord a.toNat := by
  rw [State.busRead32, regAt_none h]

theorem busWrite32_window (s : State) {a : Addr} (v : Word) (h : 0x43 < a.toNat) :
    s.busWrite32 a v = s.writeWindowWord a.toNat v := by
  rw [State.busWrite32, regAt_none h]

/-- The byte of a value at bit `n`. -/
theorem extractLsb'_byte_eq_ofNat (v : Word) (n : Nat) : v.extractLsb' n 8 = BitVec.ofNat 8 (v.toNat / 2 ^ n) := by
  rw [← Nat.shiftRight_eq_div_pow]
  rfl

/-- A 32-bit write to a buffer window changes no field but the buffers. -/
theorem writeWindowWord_frame (s : State) (a : Nat) (v : Word) : { s.writeWindowWord a v with mem := s.mem } = s := by
  rw [State.writeWindowWord, writeWindowByte_eq, writeWindowByte_eq _ (a + 2), writeWindowByte_eq _ (a + 1), writeWindowByte_eq s a]

/-- A 32-bit write stores byte `k` of the value at offset `a + k`, where that offset is stored at all (R63, R65). -/
theorem byteAt_writeWindowWord (s : State) (a : Nat) (v : Word) (x : Nat) : (s.writeWindowWord a v).byteAt x =
    if a ≤ x ∧ x < a + 4 ∧ (0x100 ≤ x ∧ x ≤ 0x1FC ∨ 0x800 ≤ x ∧ x ≤ 0xA00) then BitVec.ofNat 8 (v.toNat / 2 ^ (8 * (x - a)))
    else s.byteAt x := by
  have hb (t : State) (k : Nat) (b : Byte) := (writeWindowByte_spec t k b).2 x
  simp only [State.writeWindowWord, hb, extractLsb'_byte_eq_ofNat]
  by_cases hx : a ≤ x ∧ x < a + 4
  · obtain ⟨k, hk, rfl⟩ : ∃ k < 4, x = a + k := ⟨x - a, by omega, by omega⟩
    interval_cases k <;> simp
  · rw [if_neg (by omega), if_neg (by omega), if_neg (by omega), if_neg (by omega), if_neg (by omega)]

/-- The step that serves a legal 32-bit write to an offset other than `CMD`. -/
theorem step_write32 {s : State} {a : Addr} {v : Word} {rest : List Event} (h : s.pending = .write32 a v :: rest)
    (ha : a ≠ Reg.offset .cmd) (hl : legal32 a = true) :
    step s = .next ((State.busWrite32 { s with pending := rest } a v).answer .written) := by
  rw [step_serve h, serve, if_neg ha, if_pos hl]

/-- Settles O16: a window has no register, so a word is its four bytes; in an aligned word no offset wraps. -/
theorem wordAccessesAreLittleEndian : Obligations.WordAccessesAreLittleEndian := by
  intro s rest a v hw h4
  have hreg : 0x43 < a.toNat := by omega
  refine ⟨?_, fun h => ?_⟩
  · have hadd (k : Addr) (hk : k.toNat < 4) : (a + k).toNat = a.toNat + k.toNat := by
      rw [BitVec.toNat_add]
      omega
    rw [busRead32_window s hreg, toNat_windowWord]
    simp only [toNat_busRead8]
    rw [hadd 1 (by decide), hadd 2 (by decide), hadd 3 (by decide)]
    rfl
  · have hcmd : a ≠ Reg.offset .cmd := by rintro rfl; exact absurd hreg (by decide)
    have hstep := step_write32 h hcmd ((legal32_iff a).2 ⟨h4, .inr hw⟩)
    rw [busWrite32_window _ v hreg] at hstep
    refine ⟨_, hstep, congrArg (·.answer .written) (writeWindowWord_frame { s with pending := rest } a.toNat v), fun x => ?_⟩
    refine (byteAt_writeWindowWord { s with pending := rest } a.toNat v x).trans ?_
    congr 1
    apply propext
    omega

end Sys2Proof.Machine
end

section
/-! Proofs about the command word: decoding an encoded command, the rejected opcodes, the fields a row of the opcode map ignores, and the step
that runs a word written to `CMD` (30_encoding.md R90 to R99). -/

namespace Sys2Proof.Machine

/-! ### Decoding an encoded command (30_encoding.md R91 to R93, R97) -/

theorem decode_commandWord (op a8 : Byte) (a16 : Half) : decode (commandWord op a8 a16) = decodeFields op a8 a16 := by
  rw [decode_eq_decodeFields, opField_commandWord, a8Field_commandWord, a16Field_commandWord]

/-- The encoder's row of each command and the decoder's row of its opcode agree. -/
theorem decode_encode (i : Instr) : decode (encode i) = .ok i := by
  cases i <;> exact decode_commandWord _ _ _

/-- Settles O1: the encoded word has the fields it is built of, and R93 sends them back to the command. -/
theorem decodeEncodeRoundTrip : Obligations.DecodeEncodeRoundTrip := fun i _ => decode_encode i

/-- Settles O4: each example of R99 is the encoding of its command; the last has an `OP` that R95 lists. -/
theorem commandWordExamples : Obligations.CommandWordExamples :=
  ⟨decode_encode .crcInit, decode_encode (.crcByte 0x0A), decode_encode (.lrcPush 0xFF), decode_encode (.tcpEncode 0x01),
    decode_encode (.tcpReply 0x11 0x1234), decode_encode (.rtuEncode 0x01), decode_encode .asciiDecode, rfl⟩

/-! ### Words that select no command (30_encoding.md R95) -/

theorem decode_illegal {w : Word} (h : illegalOpcode (opField w) = true) : decode w = .error (.illegalOpcode (opField w)) := by
  rcases decode_cases w with ⟨-, hd⟩ | ⟨hl, -⟩
  · exact hd
  · rw [hl] at h
    cases h

theorem decode_legal {w : Word} (h : illegalOpcode (opField w) = false) : ∃ i, decode w = .ok i ∧ i.opcode = opField w := by
  rcases decode_cases w with ⟨hl, -⟩ | ⟨-, hd⟩
  · rw [hl] at h
    cases h
  · exact hd

/-- A rejection names the word's own `OP`, one of those R95 lists. -/
theorem decode_eq_error {w : Word} {op : Byte} (h : decode w = .error (.illegalOpcode op)) :
    illegalOpcode (opField w) = true ∧ opField w = op := by
  rcases decode_cases w with ⟨hop, hd⟩ | ⟨-, i, hd, -⟩ <;> rw [hd] at h <;> cases h
  exact ⟨hop, rfl⟩

/-- R95 lists 242 of the 256 values of `OP`: a count over one byte, which the kernel evaluates. -/
theorem length_illegalOpcodes : ((List.range 256).filter fun n => illegalOpcode (BitVec.ofNat 8 n)).length = 242 := by
  decide +kernel

/-- Settles O2: what the decoder answers, by the two values of `illegalOpcode`, and the count. -/
theorem illegalOpcodesSelectNoCommand : Obligations.IllegalOpcodesSelectNoCommand :=
  ⟨fun _ => decode_illegal, fun _ => decode_legal, length_illegalOpcodes⟩

/-- The ranges of R95, as numbers. -/
theorem illegalOpcode_iff (op : Byte) : illegalOpcode op = true ↔
    op.toNat = 0x00 ∨ 0x03 ≤ op.toNat ∧ op.toNat ≤ 0x0F ∨ 0x12 ≤ op.toNat ∧ op.toNat ≤ 0x1F ∨
      0x25 ≤ op.toNat ∧ op.toNat ≤ 0x2F ∨ 0x33 ≤ op.toNat ∧ op.toNat ≤ 0x3F ∨ 0x42 ≤ op.toNat ∧ op.toNat ≤ 0xFF := by
  simp [illegalOpcode, BitVec.le_def, ← BitVec.toNat_inj, or_assoc]

theorem runCommand_illegal {w : Word} (s : State) (h : illegalOpcode (opField w) = true) :
    runCommand w s = .next (s.illegal (opField w)) := by
  rw [runCommand, decode_illegal h]

/-- Settles O6: `OP` is the word's value modulo 256, and R95 lists it, so the word is rejected and `STATUS` alone written. -/
theorem illegalCommandWritesOnlyStatus : Obligations.IllegalCommandWritesOnlyStatus := by
  rintro s w _ rfl hranges
  have hop : illegalOpcode (opField w) = true := (illegalOpcode_iff _).2 (by rwa [opField_toNat])
  refine ⟨fun i hi => ?_, ?_⟩
  · rw [decode_illegal hop] at hi
    cases hi
  · rw [runCommand_illegal s hop, ← opField_toNat, BitVec.ofNat_toNat, BitVec.setWidth_eq]
    rfl

/-! ### Operand fields a command does not use (30_encoding.md R94) -/

theorem decodeFields_ignores_a8 {op : Byte} (h : op ∉ [0x02, 0x11, 0x20, 0x21, 0x30, 0x40]) (a8 a8' : Byte) (a16 : Half) :
    decodeFields op a8 a16 = decodeFields op a8' a16 := by
  unfold decodeFields
  split
  case h_2 | h_4 | h_5 | h_6 | h_10 | h_13 => exact absurd (by decide) h
  all_goals rfl

theorem decodeFields_ignores_a16 {op : Byte} (h : op ≠ 0x21) (a8 : Byte) (a16 a16' : Half) :
    decodeFields op a8 a16 = decodeFields op a8 a16' := by
  unfold decodeFields
  split
  case h_6 => exact absurd rfl h
  all_goals rfl

/-- Settles O3: the decoder depends on a word through its fields, on each operand field in the rows that use it. -/
theorem unusedOperandFieldsAreIgnored : Obligations.UnusedOperandFieldsAreIgnored := by
  intro w w' hop h8 h16
  have ha8 : decodeFields (opField w) (a8Field w) (a16Field w) = decodeFields (opField w) (a8Field w') (a16Field w) := by
    by_cases h : opField w ∈ [0x02, 0x11, 0x20, 0x21, 0x30, 0x40]
    · rw [h8 h]
    · exact decodeFields_ignores_a8 h _ _ _
  have ha16 : decodeFields (opField w) (a8Field w') (a16Field w) = decodeFields (opField w) (a8Field w') (a16Field w') := by
    by_cases h : opField w = 0x21
    · rw [h16 h]
    · exact decodeFields_ignores_a16 h _ _ _
  rw [decode_eq_decodeFields w, decode_eq_decodeFields w', ha8, ha16, hop]

/-! ### The step of a command word (30_encoding.md R90; 20_memory.md R64) -/

/-- The number of a word, as 32 bits, is the word (log 16). -/
theorem tableWord_toNat (w : Word) : tableWord 32 w.toNat = w := by
  rw [tableWord, Nat.mod_eq_of_lt w.isLt, BitVec.ofNat_toNat, BitVec.setWidth_eq]

theorem withFetchWord_pending (s : State) (w : Word) : (s.withFetchWord 32 w.toNat).pending = .write32 0x000 w :: s.pending := by
  rw [State.withFetchWord, tableWord_toNat]
  rfl

/-- Settles O5: a write to `CMD` is served by the command its word selects, or by the rejection; no register is written by a byte. -/
theorem stepRunsTheDecodedCommand : Obligations.StepRunsTheDecodedCommand := by
  refine ⟨fun s w rest i hp hd => step_command hp hd, fun s w rest op hp hd => ?_, fun s w i hd => ?_, fun s b rest hp => ?_⟩
  · obtain ⟨hop, rfl⟩ := decode_eq_error hd
    exact step_illegal hp hop
  · exact step_command (withFetchWord_pending s w) hd
  · exact (step_eq_busError_iff hp).2 (by decide : ¬ legal8 0x000 = true)

end Sys2Proof.Machine
end

section
/-! Proofs about what every command does to `STATUS`, and about the size check of the encoders (40_common.md R110, R111, R114). -/

namespace Sys2Proof.Machine

/-- Settles O8: a command is its body's end, and both ends are a next state. -/
theorem everyCommandEndsInANextState : Obligations.EveryCommandEndsInANextState := exec_total

/-! ### The ends of a command (R111) -/

/-- A command that raises changes `STATUS` alone, and to a cause of the class it reports (60_exceptions.md R252). -/
theorem raise_eq_withStatus {e : CmdError} (s : State) (op : Byte) (h : e.proper) :
    ∃ r c, s.raise op e = { s with status := ⟨r, c, 0, op⟩ } ∧ c.resClass = some r ∧ (r = .paramErr ∨ r = .frameErr) := by
  cases e with
  | param c => exact ⟨.paramErr, c, rfl, h, .inl rfl⟩
  | frame c => exact ⟨.frameErr, c, rfl, h, .inr rfl⟩

/-- A command reports `OK`, or the exception code of the two-byte PDU it decoded, or raises. -/
theorem exec_ends {i : Instr} {s t : State} (h : exec i s = .next t) :
    t.status = ⟨.ok, .none, 0, i.opcode⟩ ∨
    (∃ e fc, t = (s.putPdu [fc, e]).complete i.opcode .exception e) ∨
    ∃ r c, t = { s with status := ⟨r, c, 0, i.opcode⟩ } ∧ c.resClass = some r ∧ (r = .paramErr ∨ r = .frameErr) := by
  rcases exec_cases h with hb | ⟨e, hb, rfl⟩
  · rcases body_ok hb with hst | ⟨e, fc, ht, -⟩
    · exact .inl hst
    · exact .inr (.inl ⟨e, fc, ht⟩)
  · exact .inr (.inr (raise_eq_withStatus s i.opcode (body_error hb)))

/-- The second byte of a PDU of two, as the decoder leaves it in the buffer. -/
theorem byteAt_putPdu_pair (s : State) (op : Byte) (r : Res) (x fc e : Byte) :
    ((s.putPdu [fc, e]).complete op r x).byteAt 0x101 = e :=
  (bytes_eq_iff _ 0x100 [fc, e]).1 (putPdu_frame (s := s) rfl rfl).1 1 Nat.one_lt_two

/-- Settles O21: each of the three ends of a command writes all of `STATUS`. -/
theorem everyCommandWritesStatus : Obligations.EveryCommandWritesStatus := by
  intro i s t h
  rcases exec_ends h with hst | ⟨e, fc, rfl⟩ | ⟨r, c, rfl, hc, hr⟩
  · simp [hst]
  · simp [byteAt_putPdu_pair]
  · rcases hr with rfl | rfl <;> simp [hc]

/-! ### The size check (R114) -/

/-- Once the size is right, an encoder raises for its prediction only (44_rtu.md R203). -/
theorem body_encoder_error {i : Instr} {s : State} {e : CmdError} (hi : i.opcode ∈ ([0x20, 0x21, 0x30, 0x40] : List Byte))
    (h1 : 1 ≤ s.pduLen.toNat) (h2 : s.pduLen.toNat ≤ 253) (h : body i s = .error e) :
    e = .param .predShort ∨ e = .param .predRange := by
  have hc := checkPdu_ok h1 h2
  cases i with
  | crcInit | crcByte | lrcReset | lrcPush | mbapParse | tcpDecode | tcpSplit | rtuRxlen | rtuDecode | asciiDecode =>
    simp [Instr.opcode] at hi
  | tcpEncode a => simp [body, tcpEncode, hc] at h
  | tcpReply a tid => simp [body, tcpReply, hc] at h
  | asciiEncode a => simp [body, asciiEncode, hc] at h
  | rtuEncode a =>
    simp only [body, rtuEncode, hc] at h
    cases hp : rtuPredict s.pdu with
    | ok p => simp [hp] at h
    | error e' =>
      rw [hp] at h
      exact Except.error.inj h ▸ rtuPredict_error hp

/-- Settles O36: the size check is each encoder's first, and no later check reports its cause. -/
theorem encodersCheckThePduSize : Obligations.EncodersCheckThePduSize := by
  intro s i hi
  refine ⟨fun hn => failsWith_of_body_param (body_encoder_size hi hn), fun h1 h2 => ⟨checkPdu_ok h1 h2, fun t ht => ?_⟩⟩
  rcases exec_cases ht with hb | ⟨e, hb, rfl⟩
  · rcases body_ok hb with hst | ⟨e, fc, rfl, -⟩
    · simp [hst]
    · simp
  · rcases body_encoder_error hi h1 h2 hb with rfl | rfl <;> simp

end Sys2Proof.Machine
end

section
/-! Proofs about the CRC generator: its table, its two commands, a run of them among other commands, and the frame commands, which leave the
accumulators alone (41_crc16.md R130 to R137, 42_lrc.md R155). -/

namespace Sys2Proof.Machine

/-! ### The table and the fold (R130, R131, R137) -/

theorem length_crcTable : crcTable.length = 256 := by
  simp only [crcTable, List.length_append]
  rfl

/-- The index of R133, taken of the accumulator and the byte together, is the byte exclusive-ored with the low half alone. -/
theorem setWidth_xor_byte (acc : Half) (b : Byte) : (acc ^^^ b.setWidth 16).setWidth 8 = acc.setWidth 8 ^^^ b := by
  rw [BitVec.setWidth_xor, BitVec.setWidth_setWidth_of_le b (by decide), BitVec.setWidth_eq]

/-- The fold with the entry the loop of R131 computes in the place of the printed one. -/
theorem crcFold_eq_crcEntry (acc : Half) (b : Byte) :
    crcFold acc b = (acc >>> 8) ^^^ crcEntry ((acc ^^^ b.setWidth 16).setWidth 8) := by
  rw [crcFold, crcLookup_eq_crcEntry, setWidth_xor_byte]

/-- Settles O29: the shifts are linear, so the high byte moves down by eight places and the low byte becomes the table's entry. -/
theorem tableDrivenFoldIsBitSerial : Obligations.TableDrivenFoldIsBitSerial := crcFold_eq_crcShift8

/-- Settles O28: the table has an entry at every byte, and `crcLookup` reads it. -/
theorem crcTableIsTheConstruction : Obligations.CrcTableIsTheConstruction := by
  refine ⟨length_crcTable, fun i => ?_, by decide, by decide⟩
  have hi : i.toNat < crcTable.length := length_crcTable ▸ i.isLt
  rw [← crcLookup_eq_crcEntry, crcLookup, List.getElem?_eq_getElem hi, List.getD_eq_getElem _ _ hi]

/-! ### CRC_INIT and CRC_BYTE (R132 to R134) -/

/-- Settles O26: CRC_INIT loads the constant 0xFFFF and completes. -/
theorem crcInitResult : Obligations.CrcInitResult := fun _ => rfl

/-- Settles O27: CRC_BYTE folds its byte, and the table's entry is the loop's. -/
theorem crcByteResult : Obligations.CrcByteResult := fun s b => by
  rw [← crcFold_eq_crcEntry]
  rfl

theorem crcEff_of_not_isCrcCommand {i : Instr} (h : isCrcCommand i = false) (c : Half) : crcEff c i = c := by
  cases i with
  | crcInit | crcByte => cases h
  | _ => rfl

/-- The commands of a run that are not CRC commands do not count. -/
theorem foldl_crcEff_filter (cs : List Instr) (c : Half) : (cs.filter isCrcCommand).foldl crcEff c = cs.foldl crcEff c := by
  rw [List.foldl_filter]
  congr 1
  funext c i
  split
  · rfl
  · next h => exact (crcEff_of_not_isCrcCommand (Bool.eq_false_iff.2 h) c).symm

/-- CRC_INIT and CRC_BYTE over the bytes of `p` compute `crc16(p)` (R134). -/
theorem foldl_crcEff_crcInit (p : List Byte) (c : Half) : (.crcInit :: p.map .crcByte : List Instr).foldl crcEff c = crc16 p := by
  rw [List.foldl_cons, List.foldl_map]
  rfl

/-- Settles O30: the run applies `crcEff` of each command, and only the CRC commands count. -/
theorem crcCommandsComputeCrc16 : Obligations.CrcCommandsComputeCrc16 := by
  refine ⟨fun s cs p q rest hp hcs => ?_, fun i s t hi h => ?_⟩
  · obtain ⟨t, ht, hc, -⟩ := run_commands cs s rest hp
    exact ⟨t, ht, by rw [hc, ← foldl_crcEff_filter, hcs, foldl_crcEff_crcInit]⟩
  · rw [(exec_acc h).1, crcEff_of_not_isCrcCommand hi]

/-! ### The frame commands and the accumulators (R136, 42_lrc.md R155) -/

/-- The state with other values in `CRC_ACC` and `LRC_SUM`. -/
def State.withAcc (c : Half) (l : Byte) (s : State) : State := { s with crcAcc := c, lrcSum := l }

section
variable (c : Half) (l : Byte) (s : State)

/-! What a frame command reads is not the accumulators. -/

@[simp] theorem withAcc_tid : (s.withAcc c l).tid = s.tid := rfl
@[simp] theorem withAcc_baud : (s.withAcc c l).baud = s.baud := rfl
@[simp] theorem withAcc_rxLen : (s.withAcc c l).rxLen = s.rxLen := rfl
@[simp] theorem withAcc_req : (s.withAcc c l).req = s.req := rfl
@[simp] theorem rx_withAcc (i : Nat) : (s.withAcc c l).rx i = s.rx i := rfl
@[simp] theorem bytes_withAcc (a n : Nat) : (s.withAcc c l).bytes a n = s.bytes a n := bytes_congr fun _ _ => rfl
@[simp] theorem rxSlice_withAcc (i j : Nat) : (s.withAcc c l).rxSlice i j = s.rxSlice i j := bytes_withAcc c l s _ _
@[simp] theorem checkPdu_withAcc : checkPdu (s.withAcc c l) = checkPdu s := by
  simp only [checkPdu, State.pdu, bytes_withAcc]
  rfl
@[simp] theorem mbapHeader_withAcc : mbapHeader (s.withAcc c l) = mbapHeader s := rfl

theorem raise_withAcc (op : Byte) (e : CmdError) : (s.withAcc c l).raise op e = (s.raise op e).withAcc c l := by
  cases e <;> rfl

theorem classifyAndFinish_withAcc (op : Byte) (rsp : List Byte) :
    classifyAndFinish op (s.withAcc c l) rsp = (classifyAndFinish op s rsp).map (State.withAcc c l) := by
  simp only [classifyAndFinish, withAcc_req]
  cases classify s.req.fc rsp with
  | error e => rfl
  | ok v => cases v <;> rfl

/-- Two branches that are the images of two branches make the image of the choice. -/
theorem ite_eq_map {p : Prop} [Decidable p] {x y x' y' : Except CmdError State} {f : State → State} (hx : x' = x.map f)
    (hy : y' = y.map f) : (if p then x' else y') = (if p then x else y).map f := by
  split
  · exact hx
  · exact hy

theorem tcpDecode_withAcc : tcpDecode (s.withAcc c l) = (tcpDecode s).map (State.withAcc c l) := by
  simp only [tcpDecode, mbapHeader_withAcc, withAcc_req, withAcc_rxLen, rxSlice_withAcc]
  refine ite_eq_map rfl ?_
  cases mbapHeader s with
  | error e => rfl
  | ok hd =>
    exact ite_eq_map rfl <| ite_eq_map rfl <| ite_eq_map rfl <| ite_eq_map rfl <| ite_eq_map rfl <| classifyAndFinish_withAcc c l s _ _

theorem tcpSplit_withAcc : tcpSplit (s.withAcc c l) = (tcpSplit s).map (State.withAcc c l) := by
  simp only [tcpSplit, mbapHeader_withAcc, withAcc_rxLen, rxSlice_withAcc]
  cases mbapHeader s with
  | error e => rfl
  | ok hd => exact ite_eq_map rfl <| ite_eq_map rfl rfl

theorem rtuEncode_withAcc (a : Byte) : rtuEncode a (s.withAcc c l) = (rtuEncode a s).map (State.withAcc c l) := by
  simp only [rtuEncode, checkPdu_withAcc]
  cases checkPdu s with
  | error e => rfl
  | ok pdu =>
    dsimp only
    cases rtuPredict pdu <;> rfl

theorem rtuRxlen_withAcc : rtuRxlen (s.withAcc c l) = (rtuRxlen s).map (State.withAcc c l) := by
  simp only [rtuRxlen, withAcc_req, withAcc_rxLen, rx_withAcc]
  exact ite_eq_map rfl <| ite_eq_map rfl <| ite_eq_map rfl <| ite_eq_map rfl rfl

theorem rtuDecode_withAcc : rtuDecode (s.withAcc c l) = (rtuDecode s).map (State.withAcc c l) := by
  simp only [rtuDecode, withAcc_req, withAcc_rxLen, rx_withAcc, rxSlice_withAcc]
  exact ite_eq_map rfl <| ite_eq_map rfl <| ite_eq_map rfl <| ite_eq_map rfl <| classifyAndFinish_withAcc c l s _ _

theorem asciiDecode_withAcc : asciiDecode (s.withAcc c l) = (asciiDecode s).map (State.withAcc c l) := by
  simp only [asciiDecode, asciiDecodeBytes, withAcc_req, withAcc_rxLen, rx_withAcc, rxSlice_withAcc]
  refine ite_eq_map rfl <| ite_eq_map rfl <| ite_eq_map rfl <| ite_eq_map rfl <| ite_eq_map rfl ?_
  cases unhex (s.rxSlice 1 (s.rxLen.toNat - 2)) with
  | none => rfl
  | some d => exact ite_eq_map rfl <| ite_eq_map rfl <| classifyAndFinish_withAcc c l s _ _

/-- A frame command's body, from other values in the accumulators, ends in the same way with those values. -/
theorem body_withAcc {i : Instr} (hi : isFrameCommand i) : body i (s.withAcc c l) = (body i s).map (State.withAcc c l) := by
  cases i with
  | crcInit | crcByte | lrcReset | lrcPush => simp [isFrameCommand, Instr.opcode] at hi
  | tcpEncode a => simp only [body, tcpEncode, checkPdu_withAcc]; cases checkPdu s <;> rfl
  | tcpReply a tid => simp only [body, tcpReply, checkPdu_withAcc]; cases checkPdu s <;> rfl
  | asciiEncode a => simp only [body, asciiEncode, checkPdu_withAcc]; cases checkPdu s <;> rfl
  | mbapParse => simp only [body, mbapParse, mbapHeader_withAcc]; cases mbapHeader s <;> rfl
  | tcpDecode => exact tcpDecode_withAcc c l s
  | tcpSplit => exact tcpSplit_withAcc c l s
  | rtuEncode a => exact rtuEncode_withAcc c l s a
  | rtuRxlen => exact rtuRxlen_withAcc c l s
  | rtuDecode => exact rtuDecode_withAcc c l s
  | asciiDecode => exact asciiDecode_withAcc c l s

end

/-- A frame command is none of the four that write an accumulator. -/
theorem frameCommand_acc {i : Instr} {s t : State} (hi : isFrameCommand i) (h : exec i s = .next t) :
    t.crcAcc = s.crcAcc ∧ t.lrcSum = s.lrcSum := by
  obtain ⟨hc, hl⟩ := exec_acc h
  cases i with
  | crcInit | crcByte | lrcReset | lrcPush => simp [isFrameCommand, Instr.opcode] at hi
  | _ => exact ⟨hc, hl⟩

/-- Settles O23: the accumulators are kept, and the body and its end commute with a change of them. -/
theorem frameCommandsIgnoreTheAccumulators : Obligations.FrameCommandsIgnoreTheAccumulators := by
  intro i s t c l hi h
  obtain ⟨hc, hl⟩ := frameCommand_acc hi h
  refine ⟨hc, hl, ?_⟩
  have hb := body_withAcc c l s hi
  change exec i (s.withAcc c l) = .next (t.withAcc c l)
  rw [exec_eq_settle, hb]
  rcases exec_cases h with hok | ⟨e, herr, rfl⟩
  · rw [hok]; rfl
  · rw [herr]
    exact congrArg _ (raise_withAcc c l s _ e)

end Sys2Proof.Machine
end

section
/-! Proofs about the LRC accumulator: the sum of a frame with its LRC, the two commands, and a run of them among other commands (42_lrc.md
R151 to R154). -/

namespace Sys2Proof.Machine

/-! ### The function (R151, R154) -/

/-- Settles O34: the LRC is the one byte that brings the sum to a multiple of 256. -/
theorem lrcSumWithLrcIsZero : Obligations.LrcSumWithLrcIsZero := by
  intro p c
  rw [← BitVec.toNat_inj, toNat_lrc, List.map_append, List.sum_append, List.map_singleton, List.sum_singleton]
  have hc := c.isLt
  omega

/-- The LRC depends on the sum of the bytes alone, so not on their order. -/
theorem lrc_eq_of_perm {p q : List Byte} (h : q.Perm p) : lrc q = lrc p := by
  have hsum : (q.map BitVec.toNat).sum = (p.map BitVec.toNat).sum := (h.map _).sum_eq
  rw [← BitVec.toNat_inj, toNat_lrc, toNat_lrc, hsum]

/-! ### LRC_RESET and LRC_PUSH (R152 to R154) -/

/-- Settles O32: LRC_RESET loads 0 and completes. -/
theorem lrcResetResult : Obligations.LrcResetResult := fun _ => rfl

/-- The sum wraps mod 256 with no carry recorded (R153). -/
theorem lrcAdd_eq_ofNat (sum b : Byte) : lrcAdd sum b = BitVec.ofNat 8 ((sum.toNat + b.toNat) % 256) := by
  rw [← BitVec.toNat_inj, lrcAdd, BitVec.toNat_add, BitVec.toNat_ofNat, Nat.mod_mod]

/-- Settles O33: LRC_PUSH adds its byte, and the addition of bytes is the sum mod 256. -/
theorem lrcPushResult : Obligations.LrcPushResult := fun s b => by
  rw [← lrcAdd_eq_ofNat]
  rfl

theorem lrcEff_of_not_isLrcCommand {i : Instr} (h : isLrcCommand i = false) (c : Byte) : lrcEff c i = c := by
  cases i with
  | lrcReset | lrcPush => cases h
  | _ => rfl

/-- In a run of an accumulator, the commands that keep it do not count. -/
theorem foldl_filter_of_kept {α : Type} {eff : α → Instr → α} {p : Instr → Bool} (hk : ∀ {i}, p i = false → ∀ c, eff c i = c)
    (cs : List Instr) (c : α) : (cs.filter p).foldl eff c = cs.foldl eff c := by
  induction cs generalizing c with
  | nil => rfl
  | cons i cs ih =>
    cases hi : p i with
    | true => rw [List.filter_cons_of_pos hi, List.foldl_cons, List.foldl_cons, ih]
    | false => rw [List.filter_cons_of_neg (by simp [hi]), List.foldl_cons, hk hi, ih]

/-- LRC_RESET and LRC_PUSH over the bytes of `q` leave a sum that reads as `lrc(q)`. -/
theorem lrcValue_foldl_lrcEff_lrcReset (q : List Byte) (c : Byte) :
    lrcValue ((.lrcReset :: q.map .lrcPush : List Instr).foldl lrcEff c) = lrc q := by
  rw [List.foldl_cons, List.foldl_map]
  rfl

/-- Settles O35: the run applies `lrcEff` of each command, only the LRC commands count, and the order of the bytes does not. -/
theorem lrcCommandsComputeLrc : Obligations.LrcCommandsComputeLrc := by
  intro s cs p q rest hp hcs hperm
  obtain ⟨t, ht, -, hl, -⟩ := run_commands cs s rest hp
  refine ⟨t, ht, ?_⟩
  rw [hl, ← foldl_filter_of_kept lrcEff_of_not_isLrcCommand, hcs, lrcValue_foldl_lrcEff_lrcReset, lrc_eq_of_perm hperm]

end Sys2Proof.Machine
end

section
/-! Proofs about TCP framing and the transaction counter: TCP_ENCODE, TCP_REPLY, and what a step can do to `TID` (43_tcp_mbap.md R170 to
R174). -/

namespace Sys2Proof.Machine

/-- A command whose body succeeds ends in the body's state. -/
theorem exec_of_body {i : Instr} {s t : State} (h : body i s = .ok t) : exec i s = .next t := by
  rw [exec_eq_settle, h, settle_ok]

/-! ### The frame in the transmit buffer -/

/-- The bytes of a TCP frame of the PDU in its buffer, once written (R170, R171). -/
theorem tcpFrame_written {s t : State} {tid : Half} {unit : Byte} (hm : t.mem = (s.putTx (tcpFrame tid unit s.pdu)).mem)
    (hr : t.resets = s.resets) :
    t.bytes 0x400 (7 + s.pduLen.toNat) =
      be16 tid ++ [0x00, 0x00] ++ be16 (BitVec.ofNat 16 (1 + s.pduLen.toNat)) ++ [unit] ++ s.bytes 0x100 s.pduLen.toNat ∧
    SameOutside 0x400 (7 + s.pduLen.toNat) s t := by
  have h := putTx_frame hm hr
  rw [length_tcpFrame, length_pdu, tcpFrame, length_pdu] at h
  exact h

/-- The first two bytes of a TCP frame are its transaction id. -/
theorem be16Of_tcpFrame_written {s t : State} {tid : Half} {unit : Byte} {pdu : List Byte}
    (hm : t.mem = (s.putTx (tcpFrame tid unit pdu)).mem) : be16Of (t.byteAt 0x400) (t.byteAt 0x401) = tid := by
  have hb := (bytes_eq_iff t 0x400 _).1 (bytes_writeRun_same hm)
  have h0 : t.byteAt 0x400 = tid.extractLsb' 8 8 := hb 0 (by simp)
  have h1 : t.byteAt 0x401 = tid.extractLsb' 0 8 := hb 1 (by simp; omega)
  rw [h0, h1, be16Of_be16]

/-! ### TCP_ENCODE and TCP_REPLY on a PDU of legal size -/

theorem exec_tcpEncode {s : State} (slave : Byte) (h1 : 1 ≤ s.pduLen.toNat) (h2 : s.pduLen.toNat ≤ 253) :
    exec (.tcpEncode slave) s = .next ((({ s.putTx (tcpFrame (s.tid + 1) slave s.pdu) with tid := s.tid + 1 } : State).latch
      .tcp slave (functionCode s.pdu) (s.tid + 1)).complete 0x20 .ok 0) :=
  exec_of_body (by rw [body, tcpEncode, checkPdu_ok h1 h2]; rfl)

theorem exec_tcpReply {s : State} (unit : Byte) (tid : Half) (h1 : 1 ≤ s.pduLen.toNat) (h2 : s.pduLen.toNat ≤ 253) :
    exec (.tcpReply unit tid) s = .next ((s.putTx (tcpFrame tid unit s.pdu)).complete 0x21 .ok 0) :=
  exec_of_body (by rw [body, tcpReply, checkPdu_ok h1 h2]; rfl)

/-- Settles O37: the size check, then the frame with the next transaction id and the context it latches. -/
theorem tcpEncodeResult : Obligations.TcpEncodeResult := by
  rintro s slave n rfl
  refine ⟨fun h => failsWith_of_body_param (body_encoder_size (by simp [Instr.opcode]) h), fun h1 h2 => ?_⟩
  refine ⟨_, exec_tcpEncode slave h1 h2, ?_, tcpFrame_written rfl rfl⟩
  rw [← functionCode_pdu h1, ← length_pdu, ← length_tcpFrame (s.tid + 1) slave]
  rfl

/-- Settles O39: the size check, then the frame; neither `TID` nor the context is written. -/
theorem tcpReplyResult : Obligations.TcpReplyResult := by
  rintro s unit tid n rfl
  refine ⟨fun h => failsWith_of_body_param (body_encoder_size (by simp [Instr.opcode]) h), fun h1 h2 => ?_⟩
  refine ⟨_, exec_tcpReply unit tid h1 h2, ?_, tcpFrame_written rfl rfl⟩
  rw [← length_pdu, ← length_tcpFrame tid unit]
  rfl

/-! ### The transaction counter (R173) -/

/-- The frame in the transmit buffer bears the id in `TID`. -/
def State.FrameBearsTid (s : State) : Prop := be16Of (s.byteAt 0x400) (s.byteAt 0x401) = s.tid

theorem State.FrameBearsTid.toNat_eq {s : State} (h : s.FrameBearsTid) :
    (s.byteAt 0x400).toNat * 256 + (s.byteAt 0x401).toNat = s.tid.toNat := by
  rw [← toNat_be16Of]
  exact congrArg BitVec.toNat h

/-- No command but TCP_ENCODE writes `TID` (R173). -/
theorem body_tid {i : Instr} {s t : State} (hi : ∀ a, i ≠ .tcpEncode a) (h : body i s = .ok t) : t.tid = s.tid := by
  have hc {op rsp} (h : classifyAndFinish op s rsp = .ok t) : t.tid = s.tid := by
    rcases classifyAndFinish_cases h with ⟨rfl, -⟩ | ⟨e, rfl, -⟩ <;> rfl
  cases i <;> simp only [body] at h
  case crcInit | crcByte | lrcReset | lrcPush => cases h; rfl
  case tcpEncode a => exact absurd rfl (hi a)
  case tcpReply => obtain ⟨-, -, rfl⟩ := tcpReply_ok h; rfl
  case mbapParse => obtain ⟨-, -, -, rfl⟩ := mbapParse_ok h; rfl
  case tcpDecode => obtain ⟨-, -, -, -, h⟩ := tcpDecode_ok h; exact hc h
  case tcpSplit => obtain ⟨-, -, -, rfl⟩ := tcpSplit_ok h; rfl
  case rtuEncode => obtain ⟨-, -, p, -, rfl⟩ := rtuEncode_ok h; rfl
  case rtuRxlen => obtain ⟨-, -, e, -, rfl⟩ := rtuRxlen_ok h; rfl
  case rtuDecode => obtain ⟨-, -, -, h⟩ := rtuDecode_ok h; exact hc h
  case asciiEncode => obtain ⟨-, -, rfl⟩ := asciiEncode_ok h; rfl
  case asciiDecode => obtain ⟨-, rsp, -, h⟩ := asciiDecode_ok h; exact hc h

theorem raise_res_ne_ok (s : State) (op : Byte) (e : CmdError) : (s.raise op e).status.res ≠ .ok := by cases e <;> simp

/-- All a command can do to `TID`: leave it, or, as a TCP_ENCODE that succeeds, take the next id and place it in the frame. -/
theorem exec_tid_cases {i : Instr} {s t : State} (h : exec i s = .next t) :
    t.tid = s.tid ∧ ¬ (∃ a8, i = .tcpEncode a8 ∧ t.status.res = .ok) ∨
    (∃ a8, i = .tcpEncode a8) ∧ t.status.res = .ok ∧ t.tid = s.tid + 1 ∧ t.FrameBearsTid := by
  rcases exec_cases h with hb | ⟨e, -, rfl⟩
  · by_cases hi : ∃ a8, i = .tcpEncode a8
    · obtain ⟨a8, rfl⟩ := hi
      obtain ⟨-, -, rfl⟩ := tcpEncode_ok hb
      exact .inr ⟨⟨a8, rfl⟩, rfl, rfl, be16Of_tcpFrame_written (s := s) rfl⟩
    · exact .inl ⟨body_tid (not_exists.1 hi) hb, fun ⟨a8, h, _⟩ => hi ⟨a8, h⟩⟩
  · exact .inl ⟨raise_tid s _ e, fun ⟨_, _, h⟩ => raise_res_ne_ok s _ e h⟩

/-- The next id, mod 65536. -/
theorem toNat_tid_succ (x : Half) : (x + 1).toNat = (x.toNat + 1) % 65536 := BitVec.toNat_add x 1

/-- A step that serves TCP_ENCODE with a PDU of legal size takes the next id, places it in the frame, and leaves the PDU's size as it was. -/
theorem step_tcpEncode {s : State} {slave : Byte} {rest : List Event} (hp : s.pending = Prog.command (.tcpEncode slave) :: rest)
    (h1 : 1 ≤ s.pduLen.toNat) (h2 : s.pduLen.toNat ≤ 253) :
    ∃ t, step s = .next t ∧ t.tid = s.tid + 1 ∧ t.FrameBearsTid ∧ t.pduLen = s.pduLen ∧ t.pending = rest :=
  ⟨_, (step_command hp (decode_encode _)).trans (exec_tcpEncode slave h1 h2), rfl,
    be16Of_tcpFrame_written (s := { s with pending := rest, response := .written }) rfl, rfl, rfl⟩

/-- A run of TCP_ENCODEs of a PDU of legal size takes an id each, and leaves the last one in the frame. -/
theorem run_tcpEncodes (slaves : List Byte) : ∀ (s : State) (rest : List Event), 1 ≤ s.pduLen.toNat → s.pduLen.toNat ≤ 253 →
    s.pending = slaves.map (fun a8 => Prog.command (.tcpEncode a8)) ++ rest → (slaves = [] → s.FrameBearsTid) →
    ∃ t : State, core.run slaves.length s = .next t ∧ t.tid.toNat = (s.tid.toNat + slaves.length) % 65536 ∧ t.FrameBearsTid := by
  induction slaves with
  | nil => exact fun s _ _ _ _ hf => ⟨s, rfl, (Nat.mod_eq_of_lt s.tid.isLt).symm, hf rfl⟩
  | cons a slaves ih =>
    intro s rest h1 h2 hp _
    obtain ⟨t, ht, htid, hf, hl, hpend⟩ := step_tcpEncode hp h1 h2
    obtain ⟨u, hu, hn, hfu⟩ := ih t rest (by rwa [hl]) (by rwa [hl]) hpend fun _ => hf
    refine ⟨u, (run_succ core _ _ _ ht).trans hu, ?_, hfu⟩
    rw [hn, htid, toNat_tid_succ, List.length_cons, Nat.mod_add_mod, Nat.add_assoc, Nat.add_comm 1]

theorem writeWindowByte_tid (s : State) (a : Nat) (b : Byte) : (s.writeWindowByte a b).tid = s.tid := by
  rw [writeWindowByte_eq]

/-- The `TID` register is read-only to the host (10_state.md R30). -/
theorem busWrite32_tid (s : State) (a : Addr) (v : Word) : (s.busWrite32 a v).tid = s.tid := by
  unfold State.busWrite32
  split
  · next r _ => cases r <;> rfl
  · simp [State.writeWindowWord, writeWindowByte_tid]

/-- All that serving an event can do to `TID` (R173, 70_reset_and_hazards.md R283). -/
theorem serve_tid_cases {e : Event} {s t : State} (h : serve e s = .next t) :
    t.tid = s.tid ∨ t.tid = s.tid + 1 ∨ e = .reset ∧ t.tid = 0 := by
  rcases serve_cases h with ⟨a, -, -, rfl⟩ | ⟨a, b, -, -, rfl⟩ | ⟨a, -, -, rfl⟩ | ⟨a, v, -, -, -, rfl⟩ | ⟨w, -, hw⟩ | ⟨rfl, rfl⟩
  · exact .inl rfl
  · exact .inl (writeWindowByte_tid s _ b)
  · exact .inl rfl
  · exact .inl (busWrite32_tid s a v)
  · rcases runCommand_cases hw with ⟨i, -, hi⟩ | ⟨-, rfl⟩
    · rcases exec_tid_cases hi with ⟨ht, -⟩ | ⟨-, -, ht, -⟩
      · exact .inl ht
      · exact .inr (.inl ht)
    · exact .inl rfl
  · exact .inr (.inr ⟨rfl, rfl⟩)

/-- Settles O38: what a command, a run of TCP_ENCODEs and a step do to the counter. -/
theorem transactionCounterLaw : Obligations.TransactionCounterLaw := by
  refine ⟨fun i s t h => ?_, fun s slaves rest h0 h1 h2 hne hp => ?_, fun s t h => ?_⟩
  · rcases exec_tid_cases h with h | ⟨hi, hr, ht, hf⟩
    · exact .inl h
    · exact .inr ⟨hi, hr, by rw [ht, toNat_tid_succ], hf.toNat_eq⟩
  · obtain ⟨t, hrun, ht, hf⟩ := run_tcpEncodes slaves s rest h1 h2 hp fun h => absurd h hne
    have hn : t.tid.toNat = slaves.length % 65536 := by rw [ht, h0]; exact congrArg (· % 65536) (Nat.zero_add _)
    exact ⟨t, hrun, hn, hf.toNat_eq.trans hn⟩
  · cases hp : s.pending with
    | nil =>
      rw [step_idle hp] at h
      cases h
      exact .inl rfl
    | cons e rest =>
      rw [step_serve hp] at h
      rcases serve_tid_cases h with ht | ht | ⟨rfl, ht⟩
      · exact .inl ht
      · exact .inr (.inl (by rw [ht, toNat_tid_succ]))
      · exact .inr (.inr ⟨rfl, ht⟩)

end Sys2Proof.Machine
end

section
/-! Proofs about the receive side of TCP: the header's checks, MBAP_PARSE, TCP_SPLIT, TCP_DECODE, and the round trip (43_tcp_mbap.md R175 to
R180). -/

namespace Sys2Proof.Machine

/-! ### The header in `RX`, by its length field -/

theorem mbapHeader_badLength_of_mbapLen {s : State} (h : 7 ≤ s.rxLen.toNat) (hl : s.mbapLen = 0 ∨ 254 < s.mbapLen) :
    mbapHeader s = .error (.frame .badLength) := mbapHeader_badLength h (by rwa [rxHeader_len])

theorem mbapHeader_ok_of_mbapLen {s : State} (h : 7 ≤ s.rxLen.toNat) (h1 : 1 ≤ s.mbapLen) (h2 : s.mbapLen ≤ 254) :
    mbapHeader s = .ok (rxHeader s) := mbapHeader_ok h (by rwa [rxHeader_len]) (by rwa [rxHeader_len])

theorem rxHeader_len_eq_one_iff (s : State) : (rxHeader s).len = 1 ↔ s.mbapLen = 1 := by
  rw [← BitVec.toNat_inj, rxHeader_len]
  rfl

theorem rxHeader_tid_eq_iff (s : State) (tid : Half) : (rxHeader s).tid = tid ↔ s.mbapTid = tid.toNat := by
  rw [← BitVec.toNat_inj, ← mbapTid_eq]

theorem rxHeader_pid_eq_zero_iff (s : State) : (rxHeader s).pid = 0 ↔ s.mbapPid = 0 := by
  rw [← BitVec.toNat_inj, ← mbapPid_eq]
  rfl

/-- The PDU of a TCP frame follows its 7-byte header and ends with the frame (R170). -/
theorem rxSlice_tcp (s : State) (l : Nat) : s.rxSlice 7 (6 + l) = s.bytes 0x807 (l - 1) := by
  rw [State.rxSlice, show 6 + l - 7 = l - 1 by omega]

/-! ### MBAP_PARSE and TCP_SPLIT -/

/-- Settles O47: the lower bound on the count, then `mbapParse_outcome`, which holds of every count above it. -/
theorem mbapParseResult : Obligations.MbapParseResult := fun s =>
  ⟨fun h => failsWith_of_body (by rw [body, mbapParse_eq, mbapHeader_short h]; rfl), fun h _ => mbapParse_outcome h⟩

/-- TCP_SPLIT once the header's checks have passed: its last two checks and its effect (R180). -/
theorem body_tcpSplit {s : State} (h : mbapHeader s = .ok (rxHeader s)) :
    body .tcpSplit s =
      if s.rxLen.toNat ≠ 6 + s.mbapLen then .error (.frame .lengthMismatch)
      else if s.mbapLen = 1 then .error (.frame .noFunc)
      else .ok ((({ s with hdr := rxHeader s } : State).putPdu (s.bytes 0x807 (s.mbapLen - 1))).complete 0x24 .ok 0) := by
  rw [body, tcpSplit, h]
  simp only [rxHeader_len, rxHeader_len_eq_one_iff, rxSlice_tcp]
  rfl

/-- Settles O48: the header's checks, then those of `body_tcpSplit`. -/
theorem tcpSplitResult : Obligations.TcpSplitResult := by
  rintro s l rfl
  refine ⟨fun h => failsWith_of_body ?_, fun h => ⟨fun hl => failsWith_of_body ?_, fun h1 h2 => ?_⟩⟩
  · rw [body, tcpSplit, mbapHeader_short h]
  · rw [body, tcpSplit, mbapHeader_badLength_of_mbapLen h hl]
  have hb := body_tcpSplit (mbapHeader_ok_of_mbapLen h h1 h2)
  refine ⟨fun hx => failsWith_of_body ?_, fun hx hl => failsWith_of_body ?_, fun hx hl => ?_⟩
  · rw [hb, if_pos hx]
  · rw [hb, if_neg (not_not.2 hx), if_pos hl]
  · rw [if_neg (not_not.2 hx), if_neg (by omega)] at hb
    have hn := length_bytes s 0x807 (s.mbapLen - 1)
    generalize s.bytes 0x807 (s.mbapLen - 1) = pdu at hb hn ⊢
    rw [← hn, ← rxHeader_eq]
    exact ⟨_, exec_of_body hb, rfl, putPdu_frame (s := s) rfl rfl⟩

/-! ### TCP_DECODE -/

/-- TCP_DECODE of a request's reply once the header's checks have passed: its last six checks and its end (R178). -/
theorem body_tcpDecode {s : State} (hm : s.req.mode = .tcp) (h : mbapHeader s = .ok (rxHeader s)) :
    body .tcpDecode s =
      if s.rxLen.toNat ≠ 6 + s.mbapLen then .error (.frame .lengthMismatch)
      else if s.mbapTid ≠ s.req.tid.toNat then .error (.frame .tidMismatch)
      else if s.mbapPid ≠ 0 then .error (.frame .pidMismatch)
      else if s.rx 6 ≠ s.req.slave then .error (.frame .slaveMismatch)
      else if s.mbapLen = 1 then .error (.frame .noFunc)
      else classifyAndFinish 0x23 s (s.bytes 0x807 (s.mbapLen - 1)) := by
  rw [body, tcpDecode, if_neg (not_not.2 hm), h]
  simp only [rxHeader_len, rxHeader_len_eq_one_iff, ne_eq, rxHeader_tid_eq_iff, rxHeader_pid_eq_zero_iff, rxSlice_tcp]
  rfl

/-- Settles O49: the request check, the header's checks, then those of `body_tcpDecode`, each under the ones before it. -/
theorem tcpDecodeResult : Obligations.TcpDecodeResult := by
  rintro s l rfl
  refine ⟨fun hm => failsWith_of_body_param (if_pos hm), fun hm => ⟨fun h => failsWith_of_body ?_, fun h =>
    ⟨fun hl => failsWith_of_body ?_, fun h1 h2 => ?_⟩⟩⟩
  · rw [body, tcpDecode, if_neg (not_not.2 hm), mbapHeader_short h]
  · rw [body, tcpDecode, if_neg (not_not.2 hm), mbapHeader_badLength_of_mbapLen h hl]
  have hb := body_tcpDecode hm (mbapHeader_ok_of_mbapLen h h1 h2)
  refine ⟨fun hx => failsWith_of_body (hb.trans (if_pos hx)), fun hx => ?_⟩
  rw [if_neg (not_not.2 hx)] at hb
  refine ⟨fun ht => failsWith_of_body (hb.trans (if_pos ht)), fun ht => ?_⟩
  rw [if_neg (not_not.2 ht)] at hb
  refine ⟨fun hp => failsWith_of_body (hb.trans (if_pos hp)), fun hp => ?_⟩
  rw [if_neg (not_not.2 hp)] at hb
  refine ⟨fun hu => failsWith_of_body (hb.trans (if_pos hu)), fun hu => ?_⟩
  rw [if_neg (not_not.2 hu)] at hb
  refine ⟨fun hl => failsWith_of_body (hb.trans (if_pos hl)), fun hl => ?_⟩
  rw [if_neg (by omega)] at hb
  exact replyOutcome_of_body (List.ne_nil_of_length_pos (by rw [length_bytes]; omega)) hb

/-! ### The round trip (R179) -/

/-- A frame with the ids of the TCP request latched in the context, the request's function code and data decodes to its PDU. -/
theorem exec_tcpDecode_of_received {u : State} {rsp : List Byte} (hm : u.req.mode = .tcp)
    (hr : u.Received (tcpFrame u.req.tid u.req.slave rsp)) (hf : rsp.headD 0 = u.req.fc) (h2 : 2 ≤ rsp.length) (h3 : rsp.length ≤ 253) :
    ∃ v, exec .tcpDecode u = .next v ∧ v.status.res = .ok ∧ v.pdu = rsp :=
  end_normal h3 (tcp_body hr (by omega) h3 hm rfl rfl) hf (List.ne_nil_of_length_pos (by rw [List.length_tail]; omega))

/-- Settles O53: the request latched its ids and function code, and both frames are `tcpFrame` of them. -/
theorem tcpRoundTrip : Obligations.TcpRoundTrip := by
  rintro s t u slave p rfl he hres ⟨hreq, -⟩
  obtain ⟨h1, h2, rfl⟩ := tcpEncode_ok (ok_of_res he hres)
  replace hreq : u.req = ⟨.tcp, slave, functionCode s.pdu, s.tid + 1⟩ := hreq
  refine ⟨fun d hd hd2 hr => ?_, fun hp hr => ?_⟩
  · have hd1 := List.length_pos_iff.2 hd
    refine exec_tcpDecode_of_received (by rw [hreq]) ?_ (by rw [hreq]; rfl) (Nat.succ_le_succ hd1) (Nat.succ_le_succ hd2)
    rw [hreq, tcpFrame, List.length_cons, ← Nat.add_assoc, Nat.add_right_comm]
    exact hr
  · rw [length_pdu] at hp
    refine exec_tcpDecode_of_received (by rw [hreq]) ?_ (by rw [hreq]; rfl) (by rwa [length_pdu]) (by rwa [length_pdu])
    rw [txFrame_of_writeRun (s := s) rfl rfl (by rw [length_tcpFrame, length_pdu]; omega)] at hr
    rwa [hreq]

end Sys2Proof.Machine
end

section
/-! Proofs about RTU framing: the CRC of a frame, the response-length prediction, the delay, RTU_ENCODE, RTU_RXLEN, RTU_DECODE, and the
round trip (44_rtu.md R201 to R211). -/

namespace Sys2Proof.Machine

/-! ### The CRC of a frame with its CRC appended (R201) -/

theorem crc16_append_pair (p : List Byte) (lo hi : Byte) : crc16 (p ++ [lo, hi]) = crcFold (crcFold (crc16 p) lo) hi := by
  rw [← crc16_snoc, ← crc16_snoc, List.append_assoc]
  rfl

theorem crc16_append_pair_eq_zero_iff (p : List Byte) (lo hi : Byte) : crc16 (p ++ [lo, hi]) = 0 ↔ crc16 p = le16Of lo hi := by
  rw [crc16_append_pair, crcFold_crcFold_eq_zero]

/-- Settles O31: the CRC is the value of its own two bytes, low byte first. -/
theorem crcResidueIsZero : Obligations.CrcResidueIsZero :=
  ⟨fun p => (crc16_append_pair_eq_zero_iff p _ _).2 (le16Of_le16 _).symm, crc16_append_pair_eq_zero_iff⟩

/-! ### The prediction (R203, R204) -/

theorem quantityBearing_iff (fc : Byte) : quantityBearing fc = true ↔ fc ∈ ([0x01, 0x02, 0x03, 0x04, 0x17] : List Byte) := by
  simp [quantityBearing, or_assoc]

/-- A quantity-bearing request without its quantity has no prediction. -/
theorem rtuPredict_short {pdu : List Byte} (h : functionCode pdu ∈ ([0x01, 0x02, 0x03, 0x04, 0x17] : List Byte)) (hl : pdu.length < 5) :
    rtuPredict pdu = .error (.param .predShort) :=
  if_pos ⟨(quantityBearing_iff _).2 h, hl⟩

/-- Any other request is predicted by its data bytes, up to the longest RTU frame. -/
theorem rtuPredict_eq {pdu : List Byte} (h : quantityBearing (functionCode pdu) = true → 5 ≤ pdu.length) :
    rtuPredict pdu = if 4 + rtuPredictData pdu ≤ 256 then .ok (4 + rtuPredictData pdu) else .error (.param .predRange) := by
  have hs : ¬ (quantityBearing (functionCode pdu) = true ∧ pdu.length < 5) := fun ⟨hq, hl⟩ =>
    Nat.not_lt.2 (h hq) hl
  rw [rtuPredict, if_neg hs]
  simp only [rtuMin, rtuMax, gt_iff_lt, ← Nat.not_le, ite_not]

theorem exists_rtuPredict_eq_ok_iff {pdu : List Byte} (h : 5 ≤ pdu.length) :
    (∃ p, rtuPredict pdu = .ok p) ↔ rtuPredictData pdu ≤ 252 := by
  rw [rtuPredict_eq fun _ => h]
  split
  · next hp => exact iff_of_true ⟨_, rfl⟩ (by omega)
  · next hp => exact iff_of_false (by simp) (by omega)

theorem rtuPredict_eq_ok {pdu : List Byte} (h : quantityBearing (functionCode pdu) = true → 5 ≤ pdu.length)
    (hd : rtuPredictData pdu ≤ 252) : rtuPredict pdu = .ok (4 + rtuPredictData pdu) := by
  rw [rtuPredict_eq h, if_pos (by omega)]

/-- A request that bears no quantity is predicted whatever its length. -/
theorem rtuPredict_of_unquantified {pdu : List Byte} {d : Nat} (h : quantityBearing (functionCode pdu) = false)
    (hd : rtuPredictData pdu = d) (hd2 : d ≤ 252) : rtuPredict pdu = .ok (4 + d) :=
  hd ▸ rtuPredict_eq_ok (fun hq => absurd hq (by simp [h])) (hd ▸ hd2)

/-! The data bytes of the reply, by the request's function code. -/

theorem rtuPredictData_bits {pdu : List Byte} (h : functionCode pdu ∈ ([0x01, 0x02] : List Byte)) :
    rtuPredictData pdu = 1 + ((pdu.getD 3 0).toNat * 256 + (pdu.getD 4 0).toNat + 7) / 8 := by
  rw [← toNat_be16Of]
  exact if_pos (by simpa using h)

theorem rtuPredictData_registers {pdu : List Byte} (h : functionCode pdu ∈ ([0x03, 0x04, 0x17] : List Byte)) :
    rtuPredictData pdu = 1 + 2 * ((pdu.getD 3 0).toNat * 256 + (pdu.getD 4 0).toNat) := by
  rw [← toNat_be16Of]
  simp only [List.mem_cons, List.not_mem_nil, or_false] at h
  rcases h with h | h | h <;> simp [rtuPredictData, rtuQuantity, h]

theorem rtuPredictData_echo {pdu : List Byte} (h : functionCode pdu ∈ ([0x05, 0x06, 0x0F, 0x10] : List Byte)) :
    rtuPredictData pdu = 4 := by
  simp only [List.mem_cons, List.not_mem_nil, or_false] at h
  rcases h with h | h | h | h <;> simp [rtuPredictData, h]

theorem rtuPredictData_maskWrite {pdu : List Byte} (h : functionCode pdu = 0x16) : rtuPredictData pdu = 6 := by
  simp [rtuPredictData, h]

theorem rtuPredictData_other {pdu : List Byte}
    (h : functionCode pdu ∉ ([0x01, 0x02, 0x03, 0x04, 0x17, 0x05, 0x06, 0x0F, 0x10, 0x16] : List Byte)) : rtuPredictData pdu = 0 := by
  simp only [List.mem_cons, List.not_mem_nil, or_false, not_or, BitVec.ofNat_eq_ofNat] at h
  simp [rtuPredictData, h]

/-- Settles O40: the categories are disjoint, and outside the first one the data bytes give the prediction. -/
theorem rtuPredictionFormula : Obligations.RtuPredictionFormula := by
  intro pdu _
  refine ⟨rtuPredict_short, fun h hl => ?_, fun h hl => ?_, fun h => ?_, fun h => ?_, fun h => ?_⟩
  · rw [rtuPredict_eq fun _ => hl, rtuPredictData_bits h]
  · rw [rtuPredict_eq fun _ => hl, rtuPredictData_registers h]
  · have hq : ∀ fc ∈ ([0x05, 0x06, 0x0F, 0x10] : List Byte), quantityBearing fc = false := by decide
    exact rtuPredict_of_unquantified (hq _ h) (rtuPredictData_echo h) (by decide)
  · exact rtuPredict_of_unquantified (by rw [functionCode, h]; rfl) (rtuPredictData_maskWrite h) (by decide)
  · have hq : ¬ quantityBearing (functionCode pdu) = true := fun hq =>
      h (List.mem_append_left _ ((quantityBearing_iff _).1 hq))
    exact rtuPredict_of_unquantified (Bool.eq_false_iff.2 hq) (rtuPredictData_other h) (by decide)

/-- Settles O41: the limits are those of `data ≤ 252`, the data bytes of the longest predicted frame. -/
theorem rtuPredictionLimits : Obligations.RtuPredictionLimits := by
  refine ⟨?_, fun _ _ => rtuPredict_range⟩
  rintro pdu q hl rfl
  refine ⟨fun h => ?_, fun h => ?_⟩
  · have hd := rtuPredictData_bits h
    exact ⟨(exists_rtuPredict_eq_ok_iff hl).trans (by omega),
      fun hq => ⟨_, rtuPredict_eq_ok (fun _ => hl) (by omega), by omega⟩⟩
  · have hd := rtuPredictData_registers h
    exact ⟨(exists_rtuPredict_eq_ok_iff hl).trans (by omega),
      fun hq => ⟨_, rtuPredict_eq_ok (fun _ => hl) (by omega), by omega⟩⟩

/-! ### The delay (R205) -/

theorem rtuDelay_of_baud {baud : Nat} (n : Nat) (h1 : 1 ≤ baud) (h2 : baud ≤ 19200) :
    rtuDelay baud n = 15000000 / baud * n + 35000000 / baud := if_pos ⟨h1, h2⟩

theorem rtuDelay_fallback {baud : Nat} (n : Nat) (h : baud = 0 ∨ 19200 < baud) : rtuDelay baud n = 750 * n + 1750 :=
  if_neg (by simp only [baudThreshold]; omega)

/-- Settles O42: at most 256 bytes go each way, so `TX_LEN`, `PRED_LEN` and the delay fit their registers. -/
theorem rtuDelayFormula : Obligations.RtuDelayFormula := by
  refine ⟨fun baud n => ⟨rtuDelay_of_baud n, rtuDelay_fallback n, rtuDelay_lt baud n⟩, fun s t slave he hr => ?_⟩
  obtain ⟨h1, h2, p, hp, rfl⟩ := rtuEncode_ok (ok_of_res he hr)
  obtain ⟨-, hp2⟩ := rtuPredict_range hp
  have hd := rtuDelay_lt s.baud.toNat (s.pduLen.toNat + 3 + p) (by omega)
  have htx : (s.pduLen.toNat + 3) % 2 ^ 10 = s.pduLen.toNat + 3 := Nat.mod_eq_of_lt (by omega)
  have hpred : p % 2 ^ 10 = p := Nat.mod_eq_of_lt (by omega)
  simp only [complete_delayUs, latch_delayUs, complete_txLen, latch_txLen, putTx_txLen, complete_predLen, latch_predLen,
    BitVec.toNat_ofNat, length_rtuFrame, length_pdu, htx, hpred]
  exact Nat.mod_eq_of_lt (by omega)

/-! ### RTU_ENCODE (R202) -/

/-- A prediction that fails ends the encode with its cause. -/
theorem body_rtuEncode_error {s : State} (slave : Byte) {e : CmdError} (h1 : 1 ≤ s.pduLen.toNat) (h2 : s.pduLen.toNat ≤ 253)
    (hp : rtuPredict s.pdu = .error e) : body (.rtuEncode slave) s = .error e := by
  simp only [body, rtuEncode, checkPdu_ok h1 h2, hp]

/-- The end of an encode whose response length can be predicted. -/
theorem exec_rtuEncode {s : State} (slave : Byte) {p : Nat} (h1 : 1 ≤ s.pduLen.toNat) (h2 : s.pduLen.toNat ≤ 253)
    (hp : rtuPredict s.pdu = .ok p) :
    exec (.rtuEncode slave) s = .next ((({ s.putTx (rtuFrame slave s.pdu) with
      predLen := BitVec.ofNat 10 p
      delayUs := BitVec.ofNat 64 (rtuDelay s.baud.toNat (s.pduLen.toNat + 3 + p)) } : State).latch
        .rtu slave (functionCode s.pdu) 0).complete 0x30 .ok 0) :=
  exec_of_body (by simp only [body, rtuEncode, checkPdu_ok h1 h2, hp, length_pdu]; rfl)

/-- The bytes of an RTU frame of the PDU in its buffer, once written (R200, R202). -/
theorem rtuFrame_written {s t : State} {slave : Byte} (hm : t.mem = (s.putTx (rtuFrame slave s.pdu)).mem)
    (hr : t.resets = s.resets) :
    t.bytes 0x400 (s.pduLen.toNat + 3) =
      slave :: s.bytes 0x100 s.pduLen.toNat ++ le16 (crc16 (slave :: s.bytes 0x100 s.pduLen.toNat)) ∧
    SameOutside 0x400 (s.pduLen.toNat + 3) s t := by
  have h := putTx_frame hm hr
  rw [length_rtuFrame, length_pdu] at h
  exact h

/-- Settles O43: the size check, the prediction's errors, then the frame and what the encode latches. -/
theorem rtuEncodeResult : Obligations.RtuEncodeResult := by
  rintro s slave n rfl
  refine ⟨fun h => failsWith_of_body_param (body_encoder_size (by simp [Instr.opcode]) h), fun h1 h2 =>
    ⟨fun c hp => failsWith_of_body_param (body_rtuEncode_error slave h1 h2 hp), fun p hp => ?_⟩⟩
  refine ⟨_, exec_rtuEncode slave h1 h2 hp, ?_, rtuFrame_written rfl rfl⟩
  rw [← functionCode_pdu h1, ← length_pdu, ← length_rtuFrame slave]
  rfl

/-! ### RTU_RXLEN (R208) -/

/-- Settles O50: the request check and the lower bound on the count, then `rtuRxlen_outcome`, which holds of every count above it. -/
theorem rtuRxlenResult : Obligations.RtuRxlenResult := fun _ =>
  ⟨fun hm => failsWith_of_body_param (if_pos hm), fun hm =>
    ⟨fun h => failsWith_of_body ((if_neg (not_not.2 hm)).trans (if_pos h)), fun h _ => rtuRxlen_outcome hm h⟩⟩

/-! ### RTU_DECODE (R210) -/

theorem ne_le16Of_iff (x : Half) (lo hi : Byte) : x ≠ le16Of lo hi ↔ x.toNat ≠ lo.toNat + hi.toNat * 256 := by
  rw [← toNat_le16Of, ne_eq, ne_eq, BitVec.toNat_inj]

/-- RTU_DECODE of a request's reply once the count has passed: its last three checks and its end. -/
theorem body_rtuDecode {s : State} (hm : s.req.mode = .rtu) (h1 : 4 ≤ s.rxLen.toNat) (h2 : s.rxLen.toNat ≤ 256) :
    body .rtuDecode s =
      if (crc16 (s.bytes 0x800 (s.rxLen.toNat - 2))).toNat ≠
          (s.rx (s.rxLen.toNat - 2)).toNat + (s.rx (s.rxLen.toNat - 1)).toNat * 256 then .error (.frame .checksum)
      else if s.rx 0 ≠ s.req.slave then .error (.frame .slaveMismatch)
      else classifyAndFinish 0x32 s (s.bytes 0x801 (s.rxLen.toNat - 3)) := by
  have hl : ¬ (s.rxLen.toNat < rtuMin ∨ s.rxLen.toNat > rtuMax) := by simp only [rtuMin, rtuMax]; omega
  simp only [body, rtuDecode, if_neg (not_not.2 hm), if_neg hl, ne_le16Of_iff]
  rfl

/-- Settles O51: the request check, the bounds on the count, then those of `body_rtuDecode`, each under the ones before it. -/
theorem rtuDecodeResult : Obligations.RtuDecodeResult := by
  rintro s m rfl
  refine ⟨fun hm => failsWith_of_body_param (if_pos hm), fun hm =>
    ⟨fun h => failsWith_of_body ((if_neg (not_not.2 hm)).trans (if_pos h)), fun h1 h2 => ?_⟩⟩
  have hb := body_rtuDecode hm h1 h2
  refine ⟨fun hc => failsWith_of_body (hb.trans (if_pos hc)), fun hc => ?_⟩
  rw [if_neg (not_not.2 hc)] at hb
  refine ⟨fun hu => failsWith_of_body (hb.trans (if_pos hu)), fun hu => ?_⟩
  rw [if_neg (not_not.2 hu)] at hb
  exact replyOutcome_of_body (List.ne_nil_of_length_pos (by rw [length_bytes]; omega)) hb

/-! ### The round trip (R211) -/

/-- Settles O54: the request latched its slave and function code, and both frames are `rtuFrame` of the slave and a reply. -/
theorem rtuRoundTrip : Obligations.RtuRoundTrip := by
  rintro s t u slave p rfl he hres ⟨hreq, -⟩
  obtain ⟨-, -, _, -, rfl⟩ := rtuEncode_ok (ok_of_res he hres)
  replace hreq : u.req = ⟨.rtu, slave, functionCode s.pdu, 0⟩ := hreq
  have hbody {rsp : List Byte} (h1 : 1 ≤ rsp.length) (h2 : rsp.length ≤ 253) (hr : u.Received (rtuFrame slave rsp)) :
      body .rtuDecode u = classifyAndFinish 0x32 u rsp := rtu_body hr h1 h2 (by rw [hreq]) (by rw [hreq])
  refine ⟨fun d hd hd2 hr => ?_, fun e hfc hr => ?_⟩
  · have hl : (functionCode s.pdu :: d).length ≤ 253 := Nat.succ_le_succ hd2
    exact end_normal hl (hbody (Nat.succ_pos _) hl hr) (by rw [hreq]; rfl) hd
  · exact end_exc (hbody (by simp) (by simp) hr) (by rw [hreq]; rfl) (by rw [hreq]; exact hfc)

end Sys2Proof.Machine
end

section
/-! Proofs about ASCII framing: hexadecimal text, ASCII_ENCODE, ASCII_DECODE, and the round trip (45_ascii.md R230 to R236). -/

namespace Sys2Proof.Machine

/-! ### Hexadecimal text (R231, R232) -/

theorem toNat_hexDigit : ∀ v : BitVec 4, (hexDigit v).toNat = if v.toNat < 10 then 0x30 + v.toNat else 0x41 + (v.toNat - 10) := by
  decide

theorem toNat_highNibble (b : Byte) : (b.extractLsb' 4 4).toNat = b.toNat / 16 := by
  have hb := b.isLt
  rw [BitVec.extractLsb'_toNat, Nat.shiftRight_eq_div_pow]
  omega

theorem toNat_lowNibble (b : Byte) : (b.extractLsb' 0 4).toNat = b.toNat % 16 := by
  rw [BitVec.extractLsb'_toNat, Nat.shiftRight_zero]

/-- The characters of byte `i` stand at `2 * i` and `2 * i + 1`. -/
theorem getD_hex {p : List Byte} {i : Nat} (hi : i < p.length) :
    (hex p).getD (2 * i) 0 = hexDigit ((p.getD i 0).extractLsb' 4 4) ∧
    (hex p).getD (2 * i + 1) 0 = hexDigit ((p.getD i 0).extractLsb' 0 4) := by
  induction p generalizing i with
  | nil => cases hi
  | cons b p ih =>
    cases i with
    | zero => exact ⟨rfl, rfl⟩
    | succ i => exact ih (Nat.lt_of_succ_lt_succ hi)

/-- The value of a character, by the three ranges of `nib`. -/
theorem nib_eq_some_iff (ch : Byte) (v : BitVec 4) : nib ch = some v ↔
    0x30 ≤ ch.toNat ∧ ch.toNat ≤ 0x39 ∧ v.toNat = ch.toNat - 0x30 ∨
    0x41 ≤ ch.toNat ∧ ch.toNat ≤ 0x46 ∧ v.toNat = ch.toNat - 0x41 + 10 ∨
    0x61 ≤ ch.toNat ∧ ch.toNat ≤ 0x66 ∧ v.toNat = ch.toNat - 0x61 + 10 := by
  unfold nib
  repeat' split
  all_goals
    simp only [Option.some.injEq, ← BitVec.toNat_inj, BitVec.toNat_ofNat, reduceCtorEq, false_iff]
    omega

/-- Settles O45: each byte's two characters by their nibbles, and the ranges of `nib`. -/
theorem hexCharacters : Obligations.HexCharacters := by
  refine ⟨fun p i hi => ?_, nib_eq_some_iff⟩
  obtain ⟨hhigh, hlow⟩ := getD_hex hi
  rw [hhigh, hlow, toNat_hexDigit, toNat_hexDigit, toNat_highNibble, toNat_lowNibble]
  exact ⟨rfl, rfl⟩

/-- Settles O46: the text of a byte decodes to the byte, and so does its lower-case form. -/
theorem hexTextRoundTrip : Obligations.HexTextRoundTrip := fun p => ⟨length_hex p, unhex_hex p, unhex_lower p⟩

/-! ### ASCII_ENCODE (R230, R233) -/

theorem exec_asciiEncode {s : State} (slave : Byte) (h1 : 1 ≤ s.pduLen.toNat) (h2 : s.pduLen.toNat ≤ 253) :
    exec (.asciiEncode slave) s = .next (((s.putTx (asciiFrame slave s.pdu)).latch
      .ascii slave (functionCode s.pdu) 0).complete 0x40 .ok 0) :=
  exec_of_body (by rw [body, asciiEncode, checkPdu_ok h1 h2]; rfl)

/-- The characters of an ASCII frame of the PDU in its buffer, once written (R230). -/
theorem asciiFrame_written {s t : State} {slave : Byte} (hm : t.mem = (s.putTx (asciiFrame slave s.pdu)).mem)
    (hr : t.resets = s.resets) :
    t.bytes 0x400 (2 * s.pduLen.toNat + 7) =
      [0x3A] ++ hex (slave :: s.bytes 0x100 s.pduLen.toNat ++ [lrc (slave :: s.bytes 0x100 s.pduLen.toNat)]) ++ [0x0D, 0x0A] ∧
    SameOutside 0x400 (2 * s.pduLen.toNat + 7) s t := by
  have h := putTx_frame hm hr
  rw [length_asciiFrame, length_pdu] at h
  exact h

/-- Settles O44: the size check, then the frame and the context it latches. -/
theorem asciiEncodeResult : Obligations.AsciiEncodeResult := by
  rintro s slave n rfl
  refine ⟨fun h => failsWith_of_body_param (body_encoder_size (by simp [Instr.opcode]) h), fun h1 h2 => ?_⟩
  refine ⟨_, exec_asciiEncode slave h1 h2, ?_, asciiFrame_written rfl rfl⟩
  rw [← functionCode_pdu h1, ← length_pdu, ← length_asciiFrame slave]
  rfl

/-! ### ASCII_DECODE (R235) -/

/-- The hex text of a frame of `m` characters stands between its colon and its line end. -/
theorem rxSlice_hexText (s : State) (m : Nat) : s.rxSlice 1 (m - 2) = s.bytes 0x801 (m - 3) := by
  rw [State.rxSlice, Nat.sub_sub]

/-- The characters of the hex text are `RX[1]` to `RX[n]`. -/
theorem mem_hexText_iff {s : State} {n : Nat} {c : Byte} : c ∈ s.bytes 0x801 n ↔ ∃ k, 1 ≤ k ∧ k ≤ n ∧ s.rx k = c := by
  have hrx (i : Nat) : s.byteAt (0x801 + i) = s.rx (i + 1) := by rw [State.rx, Nat.add_comm i, ← Nat.add_assoc]
  simp only [List.mem_iff_getElem, getElem_bytes, length_bytes, hrx]
  constructor
  · rintro ⟨i, hi, rfl⟩
    exact ⟨i + 1, Nat.succ_pos i, hi, rfl⟩
  · rintro ⟨k, h1, hk, rfl⟩
    exact ⟨k - 1, by omega, by rw [Nat.sub_add_cancel h1]⟩

/-- Check 6: whole pairs of characters fail to decode exactly when one of the characters has no value. -/
theorem unhex_hexText_eq_none_iff {s : State} {n : Nat} (hn : n % 2 = 0) :
    unhex (s.bytes 0x801 n) = none ↔ ∃ k, 1 ≤ k ∧ k ≤ n ∧ nib (s.rx k) = none := by
  rw [unhex_eq_none_iff (by rwa [length_bytes])]
  simp only [mem_hexText_iff]
  constructor
  · rintro ⟨_, ⟨k, h1, h2, rfl⟩, h⟩
    exact ⟨k, h1, h2, h⟩
  · rintro ⟨k, h1, h2, h⟩
    exact ⟨_, ⟨k, h1, h2, rfl⟩, h⟩

/-- ASCII_DECODE of a request's reply once the count has passed: its delimiters, and the bytes of its hex text. -/
theorem body_asciiDecode {s : State} (hm : s.req.mode = .ascii) (h1 : 9 ≤ s.rxLen.toNat) (h2 : s.rxLen.toNat ≤ 513) :
    body .asciiDecode s =
      if s.rx 0 ≠ 0x3A then .error (.frame .noStart)
      else if s.rx (s.rxLen.toNat - 2) ≠ 0x0D ∨ s.rx (s.rxLen.toNat - 1) ≠ 0x0A then .error (.frame .noEnd)
      else if (s.rxLen.toNat - 1) % 2 ≠ 0 then .error (.frame .oddLength)
      else (unhex (s.bytes 0x801 (s.rxLen.toNat - 3))).elim (.error (.frame .badHex)) (asciiDecodeBytes s) := by
  have hl : ¬ (s.rxLen.toNat < asciiMinChars ∨ s.rxLen.toNat > asciiMaxChars) := by
    simp only [asciiMinChars, asciiMinBytes, asciiMaxChars]; omega
  simp only [body, asciiDecode, if_neg (not_not.2 hm), if_neg hl, rxSlice_hexText]
  cases unhex (s.bytes 0x801 (s.rxLen.toNat - 3)) <;> rfl

/-- Checks 7 and 8 and the end, on the decoded slave id, response PDU and LRC. -/
theorem asciiDecodeBytes_eq (s : State) (slave chk : Byte) (rsp : List Byte) :
    asciiDecodeBytes s (slave :: rsp ++ [chk]) =
      if lrc (slave :: rsp) ≠ chk then .error (.frame .checksum)
      else if slave ≠ s.req.slave then .error (.frame .slaveMismatch)
      else classifyAndFinish 0x41 s rsp := by
  have hlen : (slave :: rsp ++ [chk]).length - 1 = (slave :: rsp).length := by simp
  have hbody : (slave :: rsp ++ [chk]).take (slave :: rsp).length = slave :: rsp := by simp
  have hchk : (slave :: rsp ++ [chk]).getD (slave :: rsp).length 0 = chk := by simp
  simp only [asciiDecodeBytes, hlen, hbody, hchk]
  rfl

/-- A sequence of two bytes or more is a first byte, a middle and a last byte. -/
theorem exists_cons_append_singleton {d : List Byte} (h : 2 ≤ d.length) : ∃ a l z, d = a :: l ++ [z] := by
  obtain _ | ⟨a, e⟩ := d
  · cases h
  · have he : e ≠ [] := List.ne_nil_of_length_pos (Nat.le_of_succ_le_succ h)
    exact ⟨a, e.dropLast, e.getLast he, by rw [List.cons_append, List.dropLast_concat_getLast]⟩

/-- Settles O52: the request check and the bounds on the count, then the checks of `body_asciiDecode` and `asciiDecodeBytes_eq`, each
under the ones before it. -/
theorem asciiDecodeResult : Obligations.AsciiDecodeResult := by
  rintro s m rfl
  refine ⟨fun hm => failsWith_of_body_param (if_pos hm), fun hm =>
    ⟨fun h => failsWith_of_body ((if_neg (not_not.2 hm)).trans (if_pos h)), fun h1 h2 => ?_⟩⟩
  have hb := body_asciiDecode hm h1 h2
  refine ⟨fun hc => failsWith_of_body (hb.trans (if_pos hc)), fun hc => ?_⟩
  rw [if_neg (not_not.2 hc)] at hb
  refine ⟨fun he => failsWith_of_body (hb.trans (if_pos (not_and_or.1 he))), fun he1 he2 => ?_⟩
  rw [if_neg (by simp [he1, he2])] at hb
  refine ⟨fun ho => failsWith_of_body (hb.trans (if_pos ho)), fun ho => ?_⟩
  rw [if_neg (not_not.2 ho)] at hb
  have hnone := unhex_hexText_eq_none_iff (s := s) (n := s.rxLen.toNat - 3) (by omega)
  refine ⟨fun hx => failsWith_of_body (hb.trans (by rw [hnone.2 hx]; rfl)), fun hx => ?_⟩
  obtain ⟨d, hd⟩ := Option.ne_none_iff_exists'.1 fun h => by
    obtain ⟨k, hk1, hk2, hk⟩ := hnone.1 h
    exact hx k hk1 hk2 hk
  have hlen := unhex_length hd
  rw [length_bytes] at hlen
  obtain ⟨slave, rsp, chk, rfl⟩ := exists_cons_append_singleton (d := d) (by omega)
  rw [hd, Option.elim_some, asciiDecodeBytes_eq] at hb
  simp only [List.length_append, List.length_cons, List.length_nil] at hlen
  refine ⟨slave, chk, rsp, hexTextIs_of_unhex hd, by omega, fun hl => failsWith_of_body (hb.trans (if_pos hl)), fun hl => ?_⟩
  rw [if_neg (not_not.2 hl)] at hb
  refine ⟨fun hs => failsWith_of_body (hb.trans (if_pos hs)), fun hs => ?_⟩
  rw [if_neg (not_not.2 hs)] at hb
  exact replyOutcome_of_body (List.ne_nil_of_length_pos (by omega)) hb

/-! ### The round trip (R236) -/

/-- Settles O55: the request latched its slave and function code, and the text of either case decodes to the slave, a reply and its LRC. -/
theorem asciiRoundTrip : Obligations.AsciiRoundTrip := by
  rintro s t u slave p text rfl he hres ⟨hreq, -⟩ htext
  obtain ⟨-, -, rfl⟩ := asciiEncode_ok (ok_of_res he hres)
  replace hreq : u.req = ⟨.ascii, slave, functionCode s.pdu, 0⟩ := hreq
  have hdec (b : List Byte) : unhex (text b) = some b := by
    rcases htext with h | h
    · rw [h, unhex_hex]
    · rw [h, unhex_lower]
  have hbody {rsp : List Byte} (h1 : 1 ≤ rsp.length) (h2 : rsp.length ≤ 253)
      (hr : u.Received ([0x3A] ++ text (slave :: rsp ++ [lrc (slave :: rsp)]) ++ [0x0D, 0x0A])) :
      body .asciiDecode u = classifyAndFinish 0x41 u rsp := ascii_body hr (hdec _) h1 h2 (by rw [hreq]) (by rw [hreq])
  refine ⟨fun d hd hd2 hr => ?_, fun e hfc hr => ?_⟩
  · have hl : (functionCode s.pdu :: d).length ≤ 253 := Nat.succ_le_succ hd2
    exact end_normal hl (hbody (Nat.succ_pos _) hl hr) (by rw [hreq]; rfl) hd
  · exact end_exc (hbody (by simp) (by simp) hr) (by rw [hreq]; rfl) (by rw [hreq]; exact hfc)

end Sys2Proof.Machine
end

section
/-! Proofs about the state after reset: the values of its fields and registers, its buffers, the invariant, and what a block with no request
outstanding does (70_reset_and_hazards.md R280, R281). -/

namespace Sys2Proof.Machine

/-! ### The block after reset, at power-up or while it runs (R280) -/

/-- `t` is the block as reset leaves it, but for the model's own draw of the buffers and list of accesses (log 5, log 14). -/
def State.FreshFromReset (t : State) : Prop := t = { State.reset with resets := t.resets, pending := t.pending }

theorem freshFromReset_reset : State.reset.FreshFromReset := rfl

theorem freshFromReset_of_step {s t : State} {rest : List Event} (hp : s.pending = .reset :: rest) (h : step s = .next t) :
    t.FreshFromReset := by
  rw [step_serve hp] at h
  obtain rfl := Host.Outcome.next.inj h
  rfl

/-- CRC alone reads other than 0 (10_state.md R28). -/
theorem readReg_reset (r : Reg) : State.reset.readReg r = if r.offset = 0x008 then 0xFFFF else 0 := by
  cases r <;> decide

theorem statusWord_reset : State.reset.status.word = 0 := by decide

theorem lrcValue_reset : lrcValue State.reset.lrcSum = 0 := by decide

section
variable {t : State} (h : t.FreshFromReset)
include h

theorem State.FreshFromReset.readReg (r : Reg) : t.readReg r = State.reset.readReg r := by
  rw [h]
  cases r <;> rfl

theorem State.FreshFromReset.busRead32 {a : Addr} (ha : a.toNat ≤ 0x040) (h4 : a.toNat % 4 = 0) :
    t.busRead32 a = if a = 0x008 then 0xFFFF else 0 := by
  obtain ⟨r, -, rfl⟩ := regAt_some a ha h4
  rw [busRead32_offset, h.readReg, readReg_reset]

/-- No byte is listed as written, so each is the draw (10_state.md R46). -/
theorem State.FreshFromReset.byteAt (x : Nat) : t.byteAt x = Config.bufInit t.resets x := by
  rw [h]
  rfl

end

/-- A reserved byte reads 0 in every state (10_state.md R47). -/
theorem busRead8_of_not_isBufferByte (s : State) {a : Addr} (h : isBufferByte a.toNat = false) : s.busRead8 a = 0 := by
  simp [State.busRead8, windowByte_eq, h]

/-- Settles O18: power-up and a served reset leave the same fields, and each register's read follows from them. -/
theorem resetValues : Obligations.ResetValues := by
  intro s t rest ht
  have h : t.FreshFromReset := by
    rcases ht with rfl | ⟨hp, hs⟩
    · exact freshFromReset_reset
    · exact freshFromReset_of_step hp hs
  refine ⟨?_, fun a => h.busRead32, ⟨t.resets, h.byteAt⟩, fun a _ => busRead8_of_not_isBufferByte t, crcLookup_eq_crcEntry⟩
  rw [h]
  exact ⟨statusWord_reset, rfl, rfl, lrcValue_reset, rfl, rfl, rfl, rfl, rfl, rfl, rfl, rfl, rfl, rfl, rfl, rfl, rfl⟩

/-- Settles O56: each clause of the invariant at the reset values. -/
theorem invariantHoldsAtReset : Obligations.InvariantHoldsAtReset := reset_inv

/-! ### No request outstanding (R281) -/

/-- The first check of each command that needs a request is for its own format (60_exceptions.md R252). -/
theorem body_noRequest {i : Instr} {s : State} (hm : s.req.mode = .none)
    (hi : i ∈ [Instr.tcpDecode, .rtuRxlen, .rtuDecode, .asciiDecode]) : body i s = .error (.param .noRequest) := by
  simp only [List.mem_cons, List.not_mem_nil, or_false] at hi
  rcases hi with rfl | rfl | rfl | rfl <;> exact if_pos (by simp [hm])

theorem classifyAndFinish_req {op : Byte} {s t : State} {rsp : List Byte} (h : classifyAndFinish op s rsp = .ok t) :
    t.req = s.req := by
  rcases classifyAndFinish_cases h with ⟨rfl, -⟩ | ⟨e, rfl, -⟩ <;> rfl

/-- A command that does not raise leaves the request context, or is an encode of one of the three formats, which latches it (10_state.md
R33, R34). -/
theorem body_req_cases {i : Instr} {s t : State} (h : body i s = .ok t) :
    t.req = s.req ∨ t.status.res = .ok ∧ i.opcode ∈ ([0x20, 0x30, 0x40] : List Byte) := by
  cases i <;> simp only [body] at h
  case crcInit | crcByte | lrcReset | lrcPush => cases h; exact .inl rfl
  case tcpEncode => obtain ⟨-, -, rfl⟩ := tcpEncode_ok h; exact .inr ⟨rfl, by simp [Instr.opcode]⟩
  case tcpReply => obtain ⟨-, -, rfl⟩ := tcpReply_ok h; exact .inl rfl
  case mbapParse => obtain ⟨-, -, -, rfl⟩ := mbapParse_ok h; exact .inl rfl
  case tcpDecode => obtain ⟨-, -, -, -, h⟩ := tcpDecode_ok h; exact .inl (classifyAndFinish_req h)
  case tcpSplit => obtain ⟨-, -, -, rfl⟩ := tcpSplit_ok h; exact .inl rfl
  case rtuEncode => obtain ⟨-, -, p, -, rfl⟩ := rtuEncode_ok h; exact .inr ⟨rfl, by simp [Instr.opcode]⟩
  case rtuRxlen => obtain ⟨-, -, e, -, rfl⟩ := rtuRxlen_ok h; exact .inl rfl
  case rtuDecode => obtain ⟨-, -, -, h⟩ := rtuDecode_ok h; exact .inl (classifyAndFinish_req h)
  case asciiEncode => obtain ⟨-, -, rfl⟩ := asciiEncode_ok h; exact .inr ⟨rfl, by simp [Instr.opcode]⟩
  case asciiDecode => obtain ⟨-, rsp, -, h⟩ := asciiDecode_ok h; exact .inl (classifyAndFinish_req h)

/-- The request context is written by a successful TCP_ENCODE, RTU_ENCODE or ASCII_ENCODE and by no other command (R33, R34). -/
theorem exec_req_cases {i : Instr} {s t : State} (h : exec i s = .next t) :
    t.req = s.req ∨ t.status.res = .ok ∧ i.opcode ∈ ([0x20, 0x30, 0x40] : List Byte) := by
  rcases exec_cases h with hb | ⟨e, -, rfl⟩
  · exact body_req_cases hb
  · exact .inl (raise_req s _ e)

/-- Settles O20: the empty CRC is the initial value, the context after reset is that of no request, and an encode alone writes it. -/
theorem freshBlockAfterReset : Obligations.FreshBlockAfterReset := by
  refine ⟨crc16_nil.symm, crc16_nil, lrcValue_reset, fun s hs => ⟨?_, fun i t ht hn => ?_⟩⟩
  · have hf {i : Instr} (hi : i ∈ [Instr.tcpDecode, .rtuRxlen, .rtuDecode, .asciiDecode]) : FailsWith i s .paramErr .noRequest :=
      failsWith_of_body_param (body_noRequest (congrArg Request.mode hs) hi)
    exact ⟨hf (by simp), hf (by simp), hf (by simp), hf (by simp)⟩
  · rcases exec_req_cases ht with h | h
    · exact h.trans hs
    · exact absurd h hn

end Sys2Proof.Machine
end

section
/-! Proofs about the host's reads and writes, one step and whole host programs, and about the operands that no command writes
(20_memory.md R62 to R67, 30_encoding.md R98, 10_state.md R31 to R44). -/

namespace Sys2Proof.Machine

/-- Settles O7: the step's case of an empty list. -/
theorem idleBlockHoldsItsState : Obligations.IdleBlockHoldsItsState := fun _ => step_idle

/-! ### Reads (20_memory.md R64, R67) -/

/-- The step that serves a legal 8-bit read. -/
theorem step_read8 {s : State} {a : Addr} {rest : List Event} (h : s.pending = .read8 a :: rest) (hl : legal8 a = true) :
    step s = .next { s with pending := rest, response := .data (s.busRead8 a) } := by
  rw [step_serve h, serve, if_pos hl]
  rfl

/-- The list of accesses and the answer are no part of what a 32-bit read returns (log 1, log 6). -/
theorem busRead32_withOwnFields (s : State) (p : List Event) (r : Response) (a : Addr) :
    State.busRead32 { s with pending := p, response := r } a = s.busRead32 a := by
  unfold State.busRead32
  cases regAt a with
  | none => rfl
  | some reg => cases reg <;> rfl

/-- The step that serves a legal 32-bit read. -/
theorem step_read32 {s : State} {a : Addr} {rest : List Event} (h : s.pending = .read32 a :: rest) (hl : legal32 a = true) :
    step s = .next { s with pending := rest, response := .data (s.busRead32 a) } := by
  rw [step_serve h, serve, if_pos hl, ← busRead32_withOwnFields s rest s.response a]
  rfl

/-- A byte of a buffer is read as it stands, widened to a u32 (20_memory.md R62). -/
theorem busRead8_of_isBufferByte (s : State) {a : Addr} (h : isBufferByte a.toNat = true) :
    s.busRead8 a = (s.byteAt a.toNat).setWidth 32 := by
  rw [State.busRead8, windowByte_eq, if_pos h]

theorem legal8_of_isBufferByte {a : Addr} (h : isBufferByte a.toNat = true) : legal8 a = true := by
  rw [isBufferByte_iff] at h
  rw [legal8_iff]
  omega

/-- Settles O11: the step of a read, twice; the second reads the same fields. -/
theorem readsHaveNoSideEffects : Obligations.ReadsHaveNoSideEffects := by
  rintro s rest e h hl ⟨a, rfl | rfl⟩
  · exact ⟨s.busRead8 a, step_read8 h hl, step_read8 rfl hl⟩
  · have hv := busRead32_withOwnFields s (.read32 a :: rest) (.data (s.busRead32 a)) a
    exact ⟨s.busRead32 a, step_read32 h hl, (step_read32 rfl hl).trans (by rw [hv])⟩

/-- Settles O13: the step of a read, and what the window holds at the offset. -/
theorem readStepAnswersTheValue : Obligations.ReadStepAnswersTheValue := by
  refine ⟨fun s rest a h hl => step_read32 h hl, fun s rest a h hb => ?_, fun s rest a h hw hb => ?_⟩
  · rw [step_read8 h (legal8_of_isBufferByte hb), busRead8_of_isBufferByte s hb]
  · rw [step_read8 h ((legal8_iff a).2 hw), busRead8_of_not_isBufferByte s hb]

/-! ### Writes (20_memory.md R62, R63) -/

/-- The step that serves a legal 8-bit write. -/
theorem step_write8 {s : State} {a : Addr} {b : Byte} {rest : List Event} (h : s.pending = .write8 a b :: rest)
    (hl : legal8 a = true) :
    step s = .next ((State.writeWindowByte { s with pending := rest } a.toNat b).answer .written) := by
  rw [step_serve h, serve, if_pos hl, State.busWrite8]

/-- Settles O15: the step of a write is one byte write to the window and the answer. -/
theorem byteWrites : Obligations.ByteWrites := by
  intro s rest a b h hw
  obtain ⟨hframe, hbyte⟩ := writeWindowByte_spec { s with pending := rest } a.toNat b
  refine ⟨_, step_write8 h ((legal8_iff a).2 hw), congrArg (State.answer · .written) hframe, fun x => (hbyte x).trans ?_⟩
  have hstored : (0x100 ≤ a.toNat ∧ a.toNat ≤ 0x1FC ∨ 0x800 ≤ a.toNat ∧ a.toNat ≤ 0xA00) ↔
      (a.toNat ≤ 0x1FC ∨ 0x800 ≤ a.toNat ∧ a.toNat ≤ 0xA00) := by omega
  exact if_congr (and_congr_right' hstored) rfl rfl

/-! ### The host programs SETPDU and SETRX (30_encoding.md R98) -/

/-- Byte writes to the PDU or RX buffer, then a write to a register other than `CMD`, run to their end. -/
theorem run_writeBytes_w32 {s : State} {a : Nat} {bs : List Byte} {r : Reg} {v : Word} {rest : List Event}
    (ha : 0x100 ≤ a ∧ a + bs.length ≤ 0x1FD ∨ 0x800 ≤ a ∧ a + bs.length ≤ 0xA01) (hr : r ≠ .cmd)
    (hp : s.pending = Prog.writeBytes a bs ++ [Prog.w32 r v] ++ rest) :
    core.run (bs.length + 1) s =
      .next ((State.writeReg { s with pending := rest, mem := s.mem.writeRun a bs } r v).answer .written) := by
  obtain ⟨t, hrun, ht⟩ := writeBytes_run bs s a (Prog.w32 r v :: rest) ha (by simpa using hp) 1
  have hstep : core.step t = _ := writeReg_step hr (rest := rest) (v := v) (congrArg State.pending ht)
  rw [hrun, run_succ core 0 _ _ hstep, ht]
  cases r <;> rfl

/-- A run of bytes leaves every byte outside it. -/
theorem sameOutside_writeRun {s t : State} {a : Nat} {bs : List Byte} (hm : t.mem = s.mem.writeRun a bs) (hr : t.resets = s.resets) :
    SameOutside a bs.length s t := fun _ => byteAt_writeRun_outside hm hr

/-- Settles O17: the byte writes fill the buffer's first bytes, and the register's field holds their number, which fits it. -/
theorem hostProgramsPlaceTheOperands : Obligations.HostProgramsPlaceTheOperands := by
  refine ⟨fun s bs rest hl hp => ?_, fun s bs rest hl hp => ?_⟩
  · have hrun : core.run (bs.length + 1) s = .next { s with
        pending := rest, response := .written, mem := s.mem.writeRun pduBase bs, pduLen := BitVec.ofNat 9 bs.length } := by
      rw [run_writeBytes_w32 (by simp only [pduBase]; omega) (by decide) hp, State.writeReg, BitVec.setWidth_ofNat_of_le (by decide)]
      rfl
    have hlen : (BitVec.ofNat 9 bs.length).toNat = bs.length := Nat.mod_eq_of_lt (by omega)
    refine ⟨_, hrun, rfl, ?_, sameOutside_writeRun rfl rfl⟩
    rw [State.pdu, hlen]
    exact bytes_writeRun_same rfl
  · have hrun : core.run (bs.length + 1) s = .next { s with
        pending := rest, response := .written, mem := s.mem.writeRun rxBase bs, rxLen := BitVec.ofNat 10 bs.length } := by
      rw [run_writeBytes_w32 (by simp only [rxBase]; omega) (by decide) hp, State.writeReg, BitVec.setWidth_ofNat_of_le (by decide)]
      rfl
    have hlen : (BitVec.ofNat 10 bs.length).toNat = bs.length := Nat.mod_eq_of_lt (by omega)
    refine ⟨_, hrun, rfl, ⟨hlen, ?_⟩, sameOutside_writeRun rfl rfl⟩
    rw [State.rxFrame, hlen]
    exact bytes_writeRun_same rfl

/-! ### What no command writes (10_state.md R31 to R36, R44) -/

/-- All a command can do to the buffers: leave them, or write one run of bytes at the start of the TX or of the PDU buffer. -/
theorem body_mem_cases {i : Instr} {s t : State} (h : body i s = .ok t) :
    t.mem = s.mem ∨ (∃ f, f.length ≤ 513 ∧ t.mem = (s.putTx f).mem) ∨ ∃ p, p.length ≤ 253 ∧ t.mem = (s.putPdu p).mem := by
  have hc {op : Byte} {rsp : List Byte} (hl : rsp.length ≤ 253) (h : classifyAndFinish op s rsp = .ok t) :
      ∃ p, p.length ≤ 253 ∧ t.mem = (s.putPdu p).mem := by
    rcases classifyAndFinish_cases h with ⟨rfl, -⟩ | ⟨e, rfl, -⟩ <;> exact ⟨rsp, hl, rfl⟩
  cases i <;> simp only [body] at h
  case crcInit | crcByte | lrcReset | lrcPush => cases h; exact .inl rfl
  case tcpEncode => obtain ⟨-, h2, rfl⟩ := tcpEncode_ok h; exact .inr (.inl ⟨_, by simp; omega, rfl⟩)
  case tcpReply => obtain ⟨-, h2, rfl⟩ := tcpReply_ok h; exact .inr (.inl ⟨_, by simp; omega, rfl⟩)
  case mbapParse => obtain ⟨-, -, -, rfl⟩ := mbapParse_ok h; exact .inl rfl
  case tcpDecode => obtain ⟨-, -, h2, -, h⟩ := tcpDecode_ok h; exact .inr (.inr (hc (by simp [State.rxSlice]; omega) h))
  case tcpSplit => obtain ⟨-, h2, -, rfl⟩ := tcpSplit_ok h; exact .inr (.inr ⟨_, by simp [State.rxSlice]; omega, rfl⟩)
  case rtuEncode => obtain ⟨-, h2, p, -, rfl⟩ := rtuEncode_ok h; exact .inr (.inl ⟨_, by simp; omega, rfl⟩)
  case rtuRxlen => obtain ⟨-, -, e, -, rfl⟩ := rtuRxlen_ok h; exact .inl rfl
  case rtuDecode => obtain ⟨-, -, h2, h⟩ := rtuDecode_ok h; exact .inr (.inr (hc (by simp [State.rxSlice]; omega) h))
  case asciiEncode => obtain ⟨-, h2, rfl⟩ := asciiEncode_ok h; exact .inr (.inl ⟨_, by simp; omega, rfl⟩)
  case asciiDecode => obtain ⟨-, rsp, hl, h⟩ := asciiDecode_ok h; exact .inr (.inr (hc (by omega) h))

/-- No command writes the receive buffer: it lies above the other two (20_memory.md R62). -/
theorem exec_rx {i : Instr} {s t : State} (h : exec i s = .next t) (x : Nat) : t.rx x = s.rx x := by
  obtain ⟨-, -, hr, -⟩ := exec_keeps h
  rcases exec_cases h with hb | ⟨e, -, rfl⟩
  · rcases body_mem_cases hb with hm | ⟨f, hl, hm⟩ | ⟨p, hl, hm⟩
    · exact byteAt_congr hm hr _
    · exact (putTx_frame hm hr).2 _ (by simp only [rxBase]; omega)
    · exact (putPdu_frame hm hr).2 _ (by simp only [rxBase]; omega)
  · exact byteAt_congr (raise_mem s _ e) hr _

/-- Settles O25: what a command does to the request context, to the fields it keeps, and to the receive buffer. -/
theorem commandsLeaveTheHostsOperands : Obligations.CommandsLeaveTheHostsOperands := by
  intro i s t h
  obtain ⟨hpending, hresponse, hresets, hbaud, hrxLen⟩ := exec_keeps h
  exact ⟨exec_req_cases h, hbaud, hrxLen, fun x _ => exec_rx h x, hpending, hresponse, hresets⟩

end Sys2Proof.Machine
end
